-- ==== Sys2Proof/Word.lean ====
section
/-! DEFINITION. The widths of the things the spec treats as bits (00_scope.md R4, 30_encoding.md R49 and R50). -/

namespace Sys2Proof

/-- The unit of transfer of both stream spaces, the 8-bit byte (20_memory.md R28). -/
abbrev Byte := BitVec 8

/-- An accumulator register, a read result or a write operand: `BUF_W = VAL_W = 64` bits (R4). -/
abbrev Word := BitVec 64

/-- An opaque stream handle, `SID_W = 64` bits (R4, R29). -/
abbrev Handle := BitVec 64

/-- An opaque transport error code, `TERR_W = 32` bits (R4, R82). -/
abbrev ErrorCode := BitVec 32

/-- A command word, `CMD_W = 80` bits, bit 79 the most significant (R49). -/
abbrev CmdWord := BitVec 80

/-- A response word `RSP99` (R50). -/
abbrev RspWord := BitVec 99

end Sys2Proof
end

