-- ==== Sys2Proof/Machine/Answers.lean ====
section
/-! DEFINITION. What the two stream environments answer to the unit's transactions (20_memory.md R31, R34, R36). The interface
contract of R32 (a), `k` at most 8 and `len(d) = k`, is part of the type: a longer answer cannot be written (U10, log 5). -/

namespace Sys2Proof.Machine

/-- The bytes one Fill delivers, in stream order: at most 8 (R31, R32). -/
structure Delivery where
  bytes : List Byte
  atMostEight : bytes.length ≤ 8
deriving DecidableEq, Repr

/-- The `term` of a Fill answer, with the code that is meaningful only for ERR (R31). -/
inductive FillTerm where
  | ok
  | eof
  | err (code : ErrorCode)
deriving DecidableEq, Repr, Inhabited

/-- The answer `(k, d, term, code)` of a Fill (R31); `k` is the length of the delivery. -/
structure FillAnswer where
  delivery : Delivery
  term : FillTerm
deriving DecidableEq, Repr

/-- The answer of a Drain. A failed Drain has let `accepted` of its bytes through, a number the unit does not learn
(R34, R35, U4, log 6). -/
inductive DrainAnswer where
  | ok
  | err (code : ErrorCode) (accepted : Nat)
deriving DecidableEq, Repr, Inhabited

/-- The answer of a Sync (R36). -/
inductive SyncAnswer where
  | ok
  | err (code : ErrorCode)
deriving DecidableEq, Repr, Inhabited

end Sys2Proof.Machine
end

