-- ==== Sys2Proof/Config.lean ====
section
/-! DEFINITION. What the hardware fixes (00_scope.md R4) and the FREE VALUES: answers of streams the model knows nothing of.
The free values are constants without a body, so nothing can be proved of what they are (R30, R99 (b), U12, log 3). -/

namespace Sys2Proof.Config

/-- `ACC_MAX`, the largest count of an accumulator at rest (R4, R23). -/
def accMax : Nat := 63

/-- `CNT_MAX`, the largest legal request count (R4). -/
def countMax : Int := 64

/-- `BUF_W`, the width of an accumulator (R4). -/
def bufWidth : Nat := 64

/-- `FILL_N`, the number of bytes every Fill asks for (R4, R31). -/
def fillBytes : Nat := 8

/-- FREE VALUE: the bytes of the `k`-th free Fill answer of a handle; only the first 8 count. -/
opaque freeFillBytes : Handle → Nat → List Byte

/-- FREE VALUE: the `term` of the `k`-th free Fill answer of a handle. -/
opaque freeFillTerm : Handle → Nat → Machine.FillTerm

/-- FREE VALUE: the `k`-th free answer of a handle, when it is asked by a Drain. -/
opaque freeDrain : Handle → Nat → Machine.DrainAnswer

/-- FREE VALUE: the `k`-th free answer of a handle, when it is asked by a Sync. -/
opaque freeSync : Handle → Nat → Machine.SyncAnswer

end Sys2Proof.Config
end

