-- ==== Sys2Proof/Machine/Bits.lean ====
section
/-! DEFINITION. The arithmetic of 00_scope.md R5 to R9: masks and the conversions between values and bytes, on natural numbers.
Shifts are the natural-number shifts of R7, so a shift by 64 has its mathematical value and no case is special (U2, log 15). -/

namespace Sys2Proof.Machine

/-- `mask(n)` of R6, the value with the `n` low bits set. -/
def mask (n : Nat) : Nat := 2 ^ n - 1

/-- `bytes_be(v, n)` of R8: the `n/8` bytes of a value of `n` bits, most significant byte first. -/
def bytesBe (v n : Nat) : List Byte :=
  (List.range (n / 8)).map fun j => BitVec.ofNat 8 (v >>> (n - 8 * (j + 1)))

/-- `from_bytes_be` of R9: the value of `8k` bits that `k` bytes spell, most significant byte first. -/
def fromBytesBe : List Byte → Nat
  | [] => 0
  | b :: bs => b.toNat * 2 ^ (8 * bs.length) + fromBytesBe bs

/-- A natural number as a 64-bit register or field; the rules keep every value narrowed this way below `2^64` (R7). -/
def toWord (v : Nat) : Word := BitVec.ofNat 64 v

end Sys2Proof.Machine
end

