-- ==== Sys2Proof/Machine/Operands.lean ====
section
/-! DEFINITION. The operands of RD, WR and FLUSH: the count check and the quantities of bits the pseudocode of R61, R69 and R73
names. -/

namespace Sys2Proof.Machine

/-- Check 1 of RD and WR: the count is legal when `0 <= n <= 64` (30_encoding.md R53, 60_exceptions.md R80). -/
def countLegal (n : Int) : Bool := decide (0 ≤ n ∧ n ≤ Config.countMax)

/-- The operand of WR, masked to its low `n` bits (41_writer_backhaul.md R70). -/
def maskedOperand (x : Word) (n : Nat) : Nat := x.toNat &&& mask n

/-- `p` of FLUSH: the zero bits that bring `cnt` bits to a byte boundary (R73). -/
def padding (cnt : Nat) : Nat := (8 - cnt % 8) % 8

end Sys2Proof.Machine
end

