-- ==== Sys2Proof/Machine/State.lean ====
section
/-! DEFINITION. The state of the unit (10_state.md R13: eight fields, four a channel) and, beside it, what the other agents of
00_scope.md R12 hold: the host's pending commands, the two stream environments, and the trace of what has crossed the unit's
boundary. Plain data throughout. -/

namespace Sys2Proof.Machine

/-! ## The unit -/

/-- The error latch `err` of a channel, the pair (kind, code) of R17: the code belongs to TRANSPORT and is 0 otherwise. -/
inductive Latch where
  | none
  | unexpectedEoi
  | transport (code : ErrorCode)
deriving DecidableEq, Repr

/-- One channel: `buf`, `cnt`, `err`, `sid` (R15 to R18 for the reader, R19 to R22 for the writer). -/
structure Channel where
  buf : Word
  cnt : Nat
  err : Latch
  sid : Handle
deriving DecidableEq, Repr

/-- The outcomes a response can report (30_encoding.md R51). -/
inductive Status where
  | ok
  | invalidCount
  | unexpectedEoi
  | transport
  | illegalCommand
deriving DecidableEq, Repr

/-- A response `(status, code, value)` (R50). -/
structure Response where
  status : Status
  code : ErrorCode
  value : Word
deriving DecidableEq, Repr

/-! ## The stream environments -/

/-- How an input stream ends once its bytes are used up (20_memory.md R30). -/
inductive Ending where
  | eof
  | err (code : ErrorCode)
deriving DecidableEq, Repr

/-- An input stream: scripted answers first (`none` never answers, R107), and then the reference stream of R30, a list of
bytes with a position and an ending. -/
structure InStream where
  script : List (Option FillAnswer)
  data : List Byte
  pos : Nat
  ending : Ending
deriving DecidableEq, Repr

/-- An output stream (R33): the bytes `T` it has accepted, how many of them a Sync has covered, and scripted answers; where a
script is empty, the transaction succeeds. `none` in a script never answers (R107). -/
structure OutStream where
  accepted : List Byte
  synced : Nat
  drains : List (Option DrainAnswer)
  syncs : List (Option SyncAnswer)
deriving DecidableEq, Repr

/-- The input-stream environment: the platform map from handles to streams (R29), the streams, and how many free answers have
been drawn (log 2, log 3). -/
structure InputSide where
  handles : List (Handle × Nat)
  streams : List InStream
  asked : Nat
deriving DecidableEq, Repr

/-- The output-stream environment, its name space of handles separate from the input side's (R29). -/
structure OutputSide where
  handles : List (Handle × Nat)
  streams : List OutStream
  asked : Nat
deriving DecidableEq, Repr

/-! ## The command port and the trace -/

/-- What the host or the reset input offers next. -/
inductive PortInput where
  /-- A command word (R12, R14). -/
  | command (w : CmdWord)
  /-- Hardware reset between two commands (70_reset_and_hazards.md R96). -/
  | reset
  /-- Hardware reset while the command `w` is in progress: one entry of `performed` for each transaction it had issued,
  telling whether the environment carried it out (R96, U6, log 7, log 18). -/
  | cutByReset (w : CmdWord) (performed : List Bool)
deriving DecidableEq, Repr

/-- A stream transaction as the unit issues it (20_memory.md R37). -/
inductive Request where
  | fill (sid : Handle)
  | drain (sid : Handle) (bytes : List Byte)
  | sync (sid : Handle)
deriving DecidableEq, Repr

/-- What crosses the unit's boundary: answered transactions, responses, resets, and transactions a reset has cut off. -/
inductive Event where
  | fill (sid : Handle) (answer : FillAnswer)
  | drain (sid : Handle) (bytes : List Byte) (answer : DrainAnswer)
  | sync (sid : Handle) (answer : SyncAnswer)
  | response (r : Response)
  | reset
  | abandoned (r : Request) (performed : Bool)
deriving DecidableEq, Repr

/-- The whole state: the unit's two channels, and the other agents'. `trace` is oldest first. -/
structure State where
  reader : Channel
  writer : Channel
  port : List PortInput
  inputs : InputSide
  outputs : OutputSide
  trace : List Event
deriving DecidableEq, Repr

/-- Why the machine stops. -/
inductive Fault where
  /-- Raised by RD on the slow path when its input stream never answers: the unit has no next step (R107, U11). Safe. -/
  | inputNeverAnswers
  /-- Raised by WR and FLUSH when their output stream never answers a Drain or a Sync (R107, U11). Safe. -/
  | outputNeverAnswers
deriving DecidableEq, Repr

/-- Why the model gives no meaning. -/
inductive Refusal where
  /-- Raised by an arm of `exec` whose instruction has no meaning yet; no arm raises it. Safe. -/
  | notModelled (mnemonic : String)
deriving DecidableEq, Repr

/-- A channel right after hardware reset (70_reset_and_hazards.md R97). -/
def Channel.reset : Channel := { buf := 0#64, cnt := 0, err := .none, sid := 0#64 }

/-- The machine right after hardware reset: both channels as R97 says; nothing on the port, no stream known to the model and
an empty trace (DESIGN CHOICE, log 1, log 2, log 3, log 4). -/
def State.reset : State :=
  { reader := Channel.reset
    writer := Channel.reset
    port := []
    inputs := { handles := [], streams := [], asked := 0 }
    outputs := { handles := [], streams := [], asked := 0 }
    trace := [] }

/-- The observation view of R94: the eight fields of the unit. -/
def State.view (s : State) : Channel × Channel := (s.reader, s.writer)

end Sys2Proof.Machine
end

