-- ==== Sys2Proof/Machine/Flags.lean ====
section
/-! DEFINITION. The status numbers, the response word and the content of a latch (30_encoding.md R50, R51; 10_state.md R17). -/

namespace Sys2Proof.Machine

/-- The number of a status (R51). -/
def Status.number : Status → BitVec 3
  | .ok => 0#3
  | .invalidCount => 1#3
  | .unexpectedEoi => 2#3
  | .transport => 3#3
  | .illegalCommand => 7#3

/-- The response word `RSP99`: status 98:96, code 95:64, value 63:0 (R50). -/
def Response.word (r : Response) : RspWord := r.status.number ++ r.code ++ r.value

/-- The latch is set: `err != (NONE, 0)` (R61, R69, R73). -/
def Latch.isSet : Latch → Bool
  | .none => false
  | .unexpectedEoi => true
  | .transport _ => true

/-- The `kind` of a latch, as the status that reports it (R17, R51). -/
def Latch.kind : Latch → Status
  | .none => .ok
  | .unexpectedEoi => .unexpectedEoi
  | .transport _ => .transport

/-- The `code` of a latch: the stream's code for TRANSPORT, 0 otherwise (R17). -/
def Latch.code : Latch → ErrorCode
  | .none => 0#32
  | .unexpectedEoi => 0#32
  | .transport c => c

/-- The response that reports a latch; `(OK, 0, 0)` when it is clear (60_exceptions.md R85, R67, R77). -/
def Latch.response (e : Latch) : Response := { status := e.kind, code := e.code, value := 0#64 }

/-- The response `(OK, 0, v)`. -/
def Response.success (v : Word) : Response := { status := .ok, code := 0#32, value := v }

/-- The response `(INVALID_COUNT, 0, 0)` (R80). -/
def Response.invalidCount : Response := { status := .invalidCount, code := 0#32, value := 0#64 }

/-- The response `(ILLEGAL_COMMAND, 0, 0)` (R83). -/
def Response.illegalCommand : Response := { status := .illegalCommand, code := 0#32, value := 0#64 }

end Sys2Proof.Machine
end

