-- ==== Sys2Proof/Machine/Streams.lean ====
section
/-! DEFINITION. What the stream environments do: one operation for each transaction of 20_memory.md R31, R34 and R36. An
operation that answers nothing stands for a stream that never answers (70_reset_and_hazards.md R107). -/

namespace Sys2Proof.Machine

/-- The first eight bytes of a list, as a delivery (R31, R32 (a)). -/
def deliver (bytes : List Byte) : Delivery :=
  { bytes := bytes.take Config.fillBytes
    atMostEight := List.length_take_le Config.fillBytes bytes }

/-- The `term` with which an exhausted input stream answers (R30). -/
def Ending.term : Ending → FillTerm
  | .eof => .eof
  | .err c => .err c

/-! ## One stream -/

/-- A Fill of an input stream: its script first; then the reference stream of R30, which delivers `min(8, bytes left)` bytes and
answers with its ending when none is left. -/
def InStream.fill (st : InStream) : Option (FillAnswer × InStream) :=
  match st.script with
  | .none :: _ => .none
  | .some a :: rest => .some (a, { st with script := rest })
  | [] =>
    if st.pos < st.data.length then
      let chunk := deliver (st.data.drop st.pos)
      .some ({ delivery := chunk, term := .ok }, { st with pos := st.pos + chunk.bytes.length })
    else .some ({ delivery := deliver [], term := st.ending.term }, st)

/-- The bytes a Drain has put into the stream: all of them when it answers OK (R34), a prefix when it fails (R35). -/
def DrainAnswer.acceptedOf (a : DrainAnswer) (bytes : List Byte) : List Byte :=
  match a with
  | .ok => bytes
  | .err _ k => bytes.take k

/-- A Drain of an output stream: appends the accepted bytes to `T` (R33, R34, R35). -/
def OutStream.drain (st : OutStream) (bytes : List Byte) : Option (DrainAnswer × OutStream) :=
  match st.drains with
  | .none :: _ => .none
  | .some a :: rest => .some (a, { st with accepted := st.accepted ++ a.acceptedOf bytes, drains := rest })
  | [] => .some (.ok, { st with accepted := st.accepted ++ bytes })

/-- How many bytes are known to have reached the transport after a Sync: all accepted ones when it answers OK (R36), no more
than before when it fails (log 8). -/
def OutStream.syncedAfter (st : OutStream) (a : SyncAnswer) : Nat :=
  match a with
  | .ok => st.accepted.length
  | .err _ => st.synced

/-- A Sync of an output stream (R33, R36). -/
def OutStream.sync (st : OutStream) : Option (SyncAnswer × OutStream) :=
  match st.syncs with
  | .none :: _ => .none
  | .some a :: rest => .some (a, { st with synced := st.syncedAfter a, syncs := rest })
  | [] => .some (.ok, { st with synced := st.syncedAfter .ok })

/-! ## The two sides, by handle -/

/-- The input stream a handle names, with its place; `none` when the platform map names no stream the model knows (R29). -/
def InputSide.stream (e : InputSide) (h : Handle) : Option (Nat × InStream) :=
  match e.handles.lookup h with
  | .none => .none
  | .some i => (e.streams[i]?).map fun st => (i, st)

/-- The output stream a handle names, with its place (R29). -/
def OutputSide.stream (e : OutputSide) (h : Handle) : Option (Nat × OutStream) :=
  match e.handles.lookup h with
  | .none => .none
  | .some i => (e.streams[i]?).map fun st => (i, st)

/-- The answer of an input stream the model knows nothing of: a free value that obeys the contract of R32 (a) (log 3). -/
def freeFill (h : Handle) (k : Nat) : FillAnswer :=
  { delivery := deliver (Config.freeFillBytes h k), term := Config.freeFillTerm h k }

/-- `Fill(sid, 8)` (R31). -/
def InputSide.fill (e : InputSide) (h : Handle) : Option (FillAnswer × InputSide) :=
  match e.stream h with
  | .none => .some (freeFill h e.asked, { e with asked := e.asked + 1 })
  | .some (i, st) => st.fill.map fun r => (r.1, { e with streams := e.streams.set i r.2 })

/-- `Drain(sid, bytes)` (R34). -/
def OutputSide.drain (e : OutputSide) (h : Handle) (bytes : List Byte) : Option (DrainAnswer × OutputSide) :=
  match e.stream h with
  | .none => .some (Config.freeDrain h e.asked, { e with asked := e.asked + 1 })
  | .some (i, st) => (st.drain bytes).map fun r => (r.1, { e with streams := e.streams.set i r.2 })

/-- `Sync(sid)` (R36). -/
def OutputSide.sync (e : OutputSide) (h : Handle) : Option (SyncAnswer × OutputSide) :=
  match e.stream h with
  | .none => .some (Config.freeSync h e.asked, { e with asked := e.asked + 1 })
  | .some (i, st) => st.sync.map fun r => (r.1, { e with streams := e.streams.set i r.2 })

/-! ## Transactions a reset has cut off and the environment has carried out wholly (R96, U6) -/

/-- The stream after a cut Fill that was performed: it has moved past what it would have delivered. Where its script has silence
next, that entry is used up like any other and the stream's data stay where they are: the spec does not say what a Fill took
that was never answered (DESIGN CHOICE, log 18). -/
def InStream.fillPerformed (st : InStream) : InStream :=
  match st.fill with
  | .none => { st with script := st.script.tail }
  | .some r => r.2

/-- A cut Fill that was performed (log 7); an unknown stream has used up one free answer. -/
def InputSide.fillPerformed (e : InputSide) (h : Handle) : InputSide :=
  match e.stream h with
  | .none => { e with asked := e.asked + 1 }
  | .some (i, st) => { e with streams := e.streams.set i st.fillPerformed }

/-- A cut Drain that was performed: the stream has accepted every byte. -/
def OutputSide.drainPerformed (e : OutputSide) (h : Handle) (bytes : List Byte) : OutputSide :=
  match e.stream h with
  | .none => e
  | .some (i, st) =>
    { e with streams := e.streams.set i { st with accepted := st.accepted ++ bytes, drains := st.drains.tail } }

/-- A cut Sync that was performed: every accepted byte has reached the transport. -/
def OutputSide.syncPerformed (e : OutputSide) (h : Handle) : OutputSide :=
  match e.stream h with
  | .none => e
  | .some (i, st) =>
    { e with streams := e.streams.set i { st with synced := st.accepted.length, syncs := st.syncs.tail } }

end Sys2Proof.Machine
end

