-- ==== Sys2Proof/Machine/Ops.lean ====
section
/-! DEFINITION. The operations every instruction is built from: the primitives of 00_scope.md R11 (`respond`, Fill, Drain, Sync,
`latch`), the exit from the latch, and hardware reset. -/

namespace Sys2Proof.Machine

/-- Appends what has crossed the unit's boundary to the trace. -/
def State.record (s : State) (e : Event) : State := { s with trace := s.trace ++ [e] }

/-- `respond(status, code, value)`: ends the command with its one response (R11, 30_encoding.md R50). -/
def State.respond (s : State) (r : Response) : State := s.record (.response r)

/-! ## Entering and leaving the latch, the counterpart of taking an exception and returning from it -/

/-- `latch(X, kind, code)`: three writes and nothing else (60_exceptions.md R84). -/
def Channel.latch (c : Channel) (e : Latch) : Channel := { c with err := e, buf := 0#64, cnt := 0 }

/-- The reset-and-rebind operation of a channel, which also leaves the latch (R66, R76, R88). -/
def Channel.rebind (_ : Channel) (h : Handle) : Channel := { buf := 0#64, cnt := 0, err := .none, sid := h }

/-- The reader latches an error and reports it (R61, R84). -/
def State.failReader (s : State) (e : Latch) : State :=
  { s with reader := s.reader.latch e }.respond e.response

/-- The writer latches an error and reports it (R69, R73, R84). -/
def State.failWriter (s : State) (e : Latch) : State :=
  { s with writer := s.writer.latch e }.respond e.response

/-! ## Stream transactions -/

/-- `Fill(R.sid, 8)` (20_memory.md R31); nothing when the stream never answers. -/
def State.fill (s : State) : Option (FillAnswer × State) :=
  (s.inputs.fill s.reader.sid).map fun r =>
    (r.1, { s with inputs := r.2 }.record (.fill s.reader.sid r.1))

/-- `Drain(W.sid, bytes)` (R34). -/
def State.drain (s : State) (bytes : List Byte) : Option (DrainAnswer × State) :=
  (s.outputs.drain s.writer.sid bytes).map fun r =>
    (r.1, { s with outputs := r.2 }.record (.drain s.writer.sid bytes r.1))

/-- `Sync(W.sid)` (R36). -/
def State.sync (s : State) : Option (SyncAnswer × State) :=
  (s.outputs.sync s.writer.sid).map fun r =>
    (r.1, { s with outputs := r.2 }.record (.sync s.writer.sid r.1))

/-! ## Illegal commands and hardware reset -/

/-- An illegal command word: answered, and nothing else (30_encoding.md R56, 60_exceptions.md R83). -/
def State.answerIllegal (s : State) : State := s.respond .illegalCommand

/-- The reset values of the unit's eight fields; the streams are not touched (70_reset_and_hazards.md R97, R98). -/
def State.resetUnit (s : State) : State := { s with reader := Channel.reset, writer := Channel.reset }

/-- Hardware reset between two commands (R96). -/
def State.hardwareReset (s : State) : State := s.resetUnit.record .reset

end Sys2Proof.Machine
end

