-- ==== Sys2Proof/Machine/Reader.lean ====
section
/-! DEFINITION. The reader front-haul: RD, RBIND, RPOLL (40_reader_fronthaul.md R61 to R67). -/

namespace Sys2Proof.Machine

/-- The accumulator after a refill that leaves the `rem` low bits of `fresh`, or after the fast path (R61, R62). -/
def Channel.keepLow (c : Channel) (v rem : Nat) : Channel :=
  { c with buf := toWord (v &&& mask rem), cnt := rem }

/-- RD, the fast path: `n <= R.cnt` (R61, R62). -/
def rdFast (n : Nat) (s : State) : State :=
  { s with reader := s.reader.keepLow s.reader.buf.toNat (s.reader.cnt - n) }.respond
    (.success (toWord (s.reader.buf.toNat >>> (s.reader.cnt - n))))

/-- RD, the slow path once its Fill has brought enough bits: the result is the held bits followed by the top `need` bits of the
fresh bytes, and the rest of the fresh bytes stays (R61, R63). -/
def rdRefill (n : Nat) (bytes : List Byte) (s : State) : State :=
  let need := n - s.reader.cnt
  let rem := 8 * bytes.length - need
  let fresh := fromBytesBe bytes
  { s with reader := s.reader.keepLow fresh rem }.respond
    (.success (toWord ((s.reader.buf.toNat <<< need) ||| (fresh >>> rem))))

/-- RD, the slow path, from the answer of its Fill on: the transport's error first, then a shortfall (R61, R64, R87). -/
def rdAnswered (n : Nat) (a : FillAnswer) (s : State) : State :=
  match a.term with
  | .err code => s.failReader (.transport code)
  | .ok | .eof =>
    if 8 * a.delivery.bytes.length < n - s.reader.cnt then s.failReader .unexpectedEoi
    else rdRefill n a.delivery.bytes s

/-- RD (R61). -/
def execRd (n : Int) (s : State) : Host.Outcome State Fault Refusal :=
  if countLegal n = false then .next (s.respond .invalidCount)
  else if s.reader.err.isSet then .next (s.respond s.reader.err.response)
  else if n.toNat ≤ s.reader.cnt then .next (rdFast n.toNat s)
  else
    match s.fill with
    | .none => .fault .inputNeverAnswers
    | .some (a, s') => .next (rdAnswered n.toNat a s')

/-- RBIND (R66). -/
def execRbind (h : Handle) (s : State) : Host.Outcome State Fault Refusal :=
  .next ({ s with reader := s.reader.rebind h }.respond (.success 0#64))

/-- RPOLL (R67). -/
def execRpoll (s : State) : Host.Outcome State Fault Refusal :=
  .next (s.respond s.reader.err.response)

end Sys2Proof.Machine
end

