-- ==== Sys2Proof/Machine/Writer.lean ====
section
/-! DEFINITION. The writer back-haul: WR, FLUSH, WBIND, WPOLL (41_writer_backhaul.md R69 to R77). -/

namespace Sys2Proof.Machine

/-- `comb` of WR: the held bits followed by the masked operand, a value of `W.cnt + n` bits (R69). -/
def wrCombined (x : Word) (n : Nat) (c : Channel) : Nat :=
  (c.buf.toNat <<< n) ||| maskedOperand x n

/-- WR without emission: `W.cnt + n < 64` (R69, R71). -/
def wrAppend (x : Word) (n : Nat) (s : State) : State :=
  { s with writer := { s.writer with buf := toWord (wrCombined x n s.writer), cnt := s.writer.cnt + n } }.respond
    (.success 0#64)

/-- The eight bytes WR emits when the total reaches 64: the first 64 of the pending bits (R69, R72). -/
def wrEmitted (x : Word) (n : Nat) (c : Channel) : List Byte :=
  bytesBe (wrCombined x n c >>> (c.cnt + n - 64)) 64

/-- The writer's accumulator after an emission: the overflow low bits (R69, R72). -/
def wrOverflow (x : Word) (n : Nat) (c : Channel) : Channel :=
  let ov := c.cnt + n - 64
  { c with buf := toWord (maskedOperand x n &&& mask ov), cnt := ov }

/-- The end of a command whose last transaction was a Drain (R69). -/
def wrAnswered (a : DrainAnswer) (s : State) : State :=
  match a with
  | .ok => s.respond (.success 0#64)
  | .err code _ => s.failWriter (.transport code)

/-- WR (R69). -/
def execWr (x : Word) (n : Int) (s : State) : Host.Outcome State Fault Refusal :=
  if countLegal n = false then .next (s.respond .invalidCount)
  else if s.writer.err.isSet then .next (s.respond s.writer.err.response)
  else if s.writer.cnt + n.toNat < 64 then .next (wrAppend x n.toNat s)
  else
    match { s with writer := wrOverflow x n.toNat s.writer }.drain (wrEmitted x n.toNat s.writer) with
    | .none => .fault .outputNeverAnswers
    | .some (a, s') => .next (wrAnswered a s')

/-- The whole bytes FLUSH hands over: the held bits padded with zero bits; none when the accumulator is empty (R73, R74). -/
def flushBytes (c : Channel) : List Byte :=
  bytesBe (c.buf.toNat <<< padding c.cnt) (c.cnt + padding c.cnt)

/-- The writer with an empty accumulator, as FLUSH leaves it (R73). -/
def Channel.emptied (c : Channel) : Channel := { c with buf := 0#64, cnt := 0 }

/-- The end of FLUSH, from the answer of its Sync on (R73, R75). -/
def flushSynced (a : SyncAnswer) (s : State) : State :=
  match a with
  | .ok => s.respond (.success 0#64)
  | .err code => s.failWriter (.transport code)

/-- The last step of FLUSH: the Sync (R73). -/
def flushSync (s : State) : Host.Outcome State Fault Refusal :=
  match s.sync with
  | .none => .fault .outputNeverAnswers
  | .some (a, s') => .next (flushSynced a s')

/-- FLUSH (R73): the Drain, when there are bytes to hand over, and the Sync, when the Drain succeeded (R74, R75). -/
def execFlush (s : State) : Host.Outcome State Fault Refusal :=
  if s.writer.err.isSet then .next (s.respond s.writer.err.response)
  else if s.writer.cnt + padding s.writer.cnt = 0 then flushSync { s with writer := s.writer.emptied }
  else
    match { s with writer := s.writer.emptied }.drain (flushBytes s.writer) with
    | .none => .fault .outputNeverAnswers
    | .some (.err code _, s') => .next (s'.failWriter (.transport code))
    | .some (.ok, s') => flushSync s'

/-- WBIND (R76). -/
def execWbind (h : Handle) (s : State) : Host.Outcome State Fault Refusal :=
  .next ({ s with writer := s.writer.rebind h }.respond (.success 0#64))

/-- WPOLL (R77). -/
def execWpoll (s : State) : Host.Outcome State Fault Refusal :=
  .next (s.respond s.writer.err.response)

end Sys2Proof.Machine
end

