-- ==== Sys2Proof/Syntax.lean ====
section
/-! DEFINITION. The instructions of the command set BAU: one constructor per row of spec/opcode_table.json
(30_encoding.md R52). Only the fields a command uses are operands; the others are ignored (R55). -/

namespace Sys2Proof

inductive Instr where
  /-- RD: read the next `n` bits of the input stream (40_reader_fronthaul.md R61). -/
  | rd (n : Int)
  /-- WR: append the low `n` bits of `x` to the output bitstream (41_writer_backhaul.md R69). -/
  | wr (x : Word) (n : Int)
  /-- FLUSH: pad to a byte boundary, drain, sync (R73). -/
  | flush
  /-- RBIND: bind the reader to the input stream `h` and clear it (R66). -/
  | rbind (h : Handle)
  /-- WBIND: bind the writer to the output stream `h` and clear it (R76). -/
  | wbind (h : Handle)
  /-- RPOLL: report the reader's latch (R67). -/
  | rpoll
  /-- WPOLL: report the writer's latch (R77). -/
  | wpoll
deriving DecidableEq, Repr

end Sys2Proof
end

