-- ==== Sys2Proof/Machine/Dispatch.lean ====
section
/-! DEFINITION. One arm per instruction, each one call of its meaning. -/

namespace Sys2Proof.Machine

-- The seven commands of 30_encoding.md R52.
def exec (i : Instr) (s : State) : Host.Outcome State Fault Refusal :=
  match i with
  | .rd n => Sys2Proof.Machine.execRd n s
  | .wr x n => Sys2Proof.Machine.execWr x n s
  | .flush => Sys2Proof.Machine.execFlush s
  | .rbind h => Sys2Proof.Machine.execRbind h s
  | .wbind h => Sys2Proof.Machine.execWbind h s
  | .rpoll => Sys2Proof.Machine.execRpoll s
  | .wpoll => Sys2Proof.Machine.execWpoll s

end Sys2Proof.Machine
end

