-- ==== Sys2Proof/WellFormed.lean ====
section
/-! DEFINITION. Which instructions a command word can express: a count operand is an 8-bit two's complement integer,
and an assembler refuses any other (30_encoding.md R53, R59). Handles and values are 64-bit by type (R54). -/

namespace Sys2Proof

/-- A count that fits the field `count` of a command word (R53); it need not be a legal count. -/
def countFits (n : Int) : Bool := decide (-128 ≤ n ∧ n ≤ 127)

/-- The instruction has a command word. -/
def Instr.wellFormed : Instr → Bool
  | .rd n => countFits n
  | .wr _ n => countFits n
  | .flush => true
  | .rbind _ => true
  | .wbind _ => true
  | .rpoll => true
  | .wpoll => true

end Sys2Proof
end

