-- ==== Sys2Proof/Decode.lean ====
section
/-! DEFINITION. Command words to instructions and back (30_encoding.md R49 to R58), from the encoding table of R49 and the opcode
map of R52. Every 80-bit word decodes to an instruction or is illegal by name (R56). -/

namespace Sys2Proof

/-- Why a command word is illegal (R56). -/
inductive Illegal where
  /-- `op` is 0x0 or 0x8 to 0xF. -/
  | undefinedOpcode
  /-- `rsv` is not 0b0000. -/
  | reservedField
deriving DecidableEq, Repr

/-- `sint8` of 00_scope.md R10: the two's complement reading of a count field. -/
def sint8 (f : BitVec 8) : Int :=
  if f.toNat ≤ 127 then (f.toNat : Int) else (f.toNat : Int) - 256

/-- The opcode field, bits 79:76 (R49). -/
def CmdWord.op (w : CmdWord) : BitVec 4 := w.extractLsb' 76 4

/-- The reserved field, bits 75:72 (R49). -/
def CmdWord.rsv (w : CmdWord) : BitVec 4 := w.extractLsb' 72 4

/-- The count field, bits 71:64 (R49). -/
def CmdWord.count (w : CmdWord) : BitVec 8 := w.extractLsb' 64 8

/-- The value field, bits 63:0 (R49). -/
def CmdWord.value (w : CmdWord) : Word := w.extractLsb' 0 64

/-- Decoding in the order of R58: the illegal-command test of R56, then dispatch on `op` (R52). The count and latch
checks belong to the instructions. -/
def decode (w : CmdWord) : Except Illegal Instr :=
  if CmdWord.rsv w ≠ 0#4 then .error .reservedField
  else
    match (CmdWord.op w).toNat with
    | 1 => .ok (.rd (sint8 (CmdWord.count w)))
    | 2 => .ok (.wr (CmdWord.value w) (sint8 (CmdWord.count w)))
    | 3 => .ok .flush
    | 4 => .ok (.rbind (CmdWord.value w))
    | 5 => .ok (.wbind (CmdWord.value w))
    | 6 => .ok .rpoll
    | 7 => .ok .wpoll
    | _ => .error .undefinedOpcode

/-- A command word put together from its fields, `rsv` zero (R49). -/
def packCommand (op : BitVec 4) (count : BitVec 8) (value : Word) : CmdWord :=
  op ++ 0#4 ++ count ++ value

/-- The count field an assembler writes for `n`: `n mod 256` (R59). -/
def countField (n : Int) : BitVec 8 := BitVec.ofInt 8 n

/-- The canonical command word: zero in every ignored field (R55, R59). -/
def encode : Instr → CmdWord
  | .rd n => packCommand 0x1#4 (countField n) 0#64
  | .wr x n => packCommand 0x2#4 (countField n) x
  | .flush => packCommand 0x3#4 0#8 0#64
  | .rbind h => packCommand 0x4#4 0#8 h
  | .wbind h => packCommand 0x5#4 0#8 h
  | .rpoll => packCommand 0x6#4 0#8 0#64
  | .wpoll => packCommand 0x7#4 0#8 0#64

/-- The command word whose `nbits` lowest bits are those of `w`, the rest zero: a command is one 80-bit word, so bit 0 of
the table's numbering is bit 0 of the word (log 14). -/
def tableWord (nbits w : Nat) : CmdWord := BitVec.ofNat 80 (w % 2 ^ nbits)

/-- What the decoder reads from an instruction whose bits are `w`; `none` where the word is illegal. -/
def decodeTableWord (nbits w : Nat) : Option Instr :=
  (decode (tableWord nbits w)).toOption

end Sys2Proof
end

