-- ==== Sys2Proof/Machine/Port.lean ====
section
/-! DEFINITION. The command port (00_scope.md R12, 10_state.md R14): what comes next, and a command that a hardware reset cuts off
(70_reset_and_hazards.md R96, U6, log 7). -/

namespace Sys2Proof.Machine

/-- The next entry of the port, and the state with that entry taken; nothing when the host offers nothing. -/
def State.fetch (s : State) : Option (PortInput × State) :=
  match s.port with
  | [] => .none
  | p :: rest => .some (p, { s with port := rest })

/-- The state with a command word put before everything the port still holds. -/
def State.offer (s : State) (w : CmdWord) : State := { s with port := .command w :: s.port }

/-- The transactions a command issues, in order, as long as each is answered OK: the table of 20_memory.md R37. -/
def requests (i : Instr) (s : State) : List Request :=
  match i with
  | .rd n =>
    if countLegal n && !s.reader.err.isSet && decide (s.reader.cnt < n.toNat) then [.fill s.reader.sid] else []
  | .wr x n =>
    if countLegal n && !s.writer.err.isSet && decide (64 ≤ s.writer.cnt + n.toNat) then
      [.drain s.writer.sid (wrEmitted x n.toNat s.writer)]
    else []
  | .flush =>
    if s.writer.err.isSet then []
    else if s.writer.cnt = 0 then [.sync s.writer.sid]
    else [.drain s.writer.sid (flushBytes s.writer), .sync s.writer.sid]
  | .rbind _ => []
  | .wbind _ => []
  | .rpoll => []
  | .wpoll => []

/-- The transactions a command word issues; an illegal word issues none (R37, R56). -/
def wordRequests (w : CmdWord) (s : State) : List Request :=
  match decode w with
  | .ok i => requests i s
  | .error _ => []

/-- The environment's side of a cut transaction that was performed. -/
def State.perform (s : State) (r : Request) : State :=
  match r with
  | .fill h => { s with inputs := s.inputs.fillPerformed h }
  | .drain h bytes => { s with outputs := s.outputs.drainPerformed h bytes }
  | .sync h => { s with outputs := s.outputs.syncPerformed h }

/-- The transactions issued before a cut, each wholly performed or not (U6). One that was not performed was not answered, so
nothing was issued after it. -/
def State.performCut (s : State) : List Request → List Bool → State
  | r :: rs, true :: bs => ((s.perform r).record (.abandoned r true)).performCut rs bs
  | r :: _, false :: _ => s.record (.abandoned r false)
  | [], _ => s
  | _ :: _, [] => s

/-- A command cut off by hardware reset: no response, and the reset state of the unit regardless (R96, R97, U6). -/
def State.cutCommand (s : State) (w : CmdWord) (performed : List Bool) : State :=
  (s.performCut (wordRequests w s) performed).hardwareReset

end Sys2Proof.Machine
end

