-- ==== Sys2Proof/Machine/Step.lean ====
section
/-! DEFINITION. One step: the unit takes the next entry of its command port and carries it out (00_scope.md R12). With nothing on
the port the unit is idle and keeps all state (60_exceptions.md R95, log 12). -/

namespace Sys2Proof.Machine

def step (s : State) : Host.Outcome State Fault Refusal :=
  match s.fetch with
  | .none => .next s
  | .some (.command w, s') =>
    match decode w with
    | .ok i => exec i s'
    | .error _ => .next s'.answerIllegal
  | .some (.reset, s') => .next s'.hardwareReset
  | .some (.cutByReset w performed, s') => .next (s'.cutCommand w performed)

/-- The state in which the host offers, as its next command, the instruction whose bits are `w` (log 1, log 14). -/
def State.withFetchWord (s : State) (nbits w : Nat) : State := s.offer (tableWord nbits w)

end Sys2Proof.Machine
end

