-- ==== Sys2Proof/Machine/Assembler.lean ====
section
/-! DEFINITION. The assembler syntax of 30_encoding.md R59 and the call aliases of R60: one command a line, mnemonic in capitals,
operands separated by a comma, `;` to the end of the line a comment (log 16). -/

namespace Sys2Proof.Machine

/-- Why a line is no command. -/
inductive AsmError where
  /-- The mnemonic is neither one of R52 nor an alias of R60. -/
  | unknownMnemonic
  /-- The command takes another number of operands, or its parentheses do not match. -/
  | badOperands
  /-- An operand is not a number as R59 writes it. -/
  | badLiteral
  /-- The count is outside `[-128, 127]` (R59). -/
  | countOutOfRange
  /-- The value or handle is `2^64` or more (R59). -/
  | valueOutOfRange
deriving DecidableEq, Repr

namespace Asm

def isBlank (c : Char) : Bool := c == ' ' || c == '\t'

def isLetter (c : Char) : Bool := (65 ≤ c.toNat && c.toNat ≤ 90) || (97 ≤ c.toNat && c.toNat ≤ 122)

def trim (l : List Char) : List Char := ((l.dropWhile isBlank).reverse.dropWhile isBlank).reverse

/-- Splits at every comma. -/
def splitCommas : List Char → List (List Char)
  | [] => [[]]
  | c :: cs =>
    if c == ',' then [] :: splitCommas cs
    else
      match splitCommas cs with
      | [] => [[c]]
      | p :: ps => (c :: p) :: ps

/-- The operands of a command, blanks around each removed. -/
def operands (l : List Char) : List (List Char) :=
  if trim l = [] then [] else (splitCommas l).map trim

/-- The value of a digit in a base, when it is one. -/
def digit (base : Nat) (c : Char) : Option Nat :=
  let k := c.toNat
  let v :=
    if 48 ≤ k ∧ k ≤ 57 then k - 48
    else if 65 ≤ k ∧ k ≤ 70 then k - 55
    else if 97 ≤ k ∧ k ≤ 102 then k - 87
    else 16
  if v < base then some v else none

def digitsFrom (base : Nat) : List Char → Nat → Option Nat
  | [], acc => some acc
  | c :: cs, acc =>
    match digit base c with
    | some d => digitsFrom base cs (acc * base + d)
    | none => none

/-- A number with at least one digit. -/
def digits (base : Nat) (l : List Char) : Option Nat := if l = [] then none else digitsFrom base l 0

/-- An unsigned literal: `0b...`, `0x...` or decimal (R59). -/
def natural : List Char → Option Nat
  | '0' :: 'b' :: cs => digits 2 cs
  | '0' :: 'x' :: cs => digits 16 cs
  | cs => digits 10 cs

/-- A decimal integer, with a sign when it is negative (R59). -/
def integer : List Char → Option Int
  | '-' :: cs => (digits 10 cs).map fun v => -(v : Int)
  | cs => (digits 10 cs).map fun v => (v : Int)

/-- A count operand; an assembler refuses what has no count field (R59). -/
def count (l : List Char) : Except AsmError Int :=
  match integer l with
  | none => .error .badLiteral
  | some n => if countFits n then .ok n else .error .countOutOfRange

/-- A 64-bit operand (R59). -/
def word (l : List Char) : Except AsmError Word :=
  match natural l with
  | none => .error .badLiteral
  | some v => if v < 2 ^ 64 then .ok (BitVec.ofNat 64 v) else .error .valueOutOfRange

/-- The instruction a mnemonic and its operands stand for (R59). -/
def instruction (name : List Char) (ops : List (List Char)) : Except AsmError Instr :=
  if name = "RD".toList then
    match ops with
    | [n] => (count n).map .rd
    | _ => .error .badOperands
  else if name = "WR".toList then
    match ops with
    | [x, n] => (word x).bind fun v => (count n).map (.wr v)
    | _ => .error .badOperands
  else if name = "RBIND".toList then
    match ops with
    | [h] => (word h).map .rbind
    | _ => .error .badOperands
  else if name = "WBIND".toList then
    match ops with
    | [h] => (word h).map .wbind
    | _ => .error .badOperands
  else if name = "FLUSH".toList then if ops = [] then .ok .flush else .error .badOperands
  else if name = "RPOLL".toList then if ops = [] then .ok .rpoll else .error .badOperands
  else if name = "WPOLL".toList then if ops = [] then .ok .wpoll else .error .badOperands
  else .error .unknownMnemonic

/-- The mnemonic an alias stands for (R60). -/
def aliasOf (name : List Char) : Option (List Char) :=
  if name = "read".toList then some "RD".toList
  else if name = "write".toList then some "WR".toList
  else if name = "flush".toList then some "FLUSH".toList
  else none

/-- What stands between the parentheses of a call. -/
def insideParens (l : List Char) : Option (List Char) :=
  match trim l with
  | '(' :: cs =>
    match cs.reverse with
    | ')' :: inner => some inner.reverse
    | _ => none
  | _ => none

/-- A trimmed, non-empty line: a mnemonic with its operands, or a call (R59, R60). -/
def commandOf (l : List Char) : Except AsmError Instr :=
  let name := l.takeWhile isLetter
  let rest := l.dropWhile isLetter
  match aliasOf name with
  | some mnemonic =>
    match insideParens rest with
    | some inner => instruction mnemonic (operands inner)
    | none => .error .badOperands
  | none =>
    match rest with
    | [] => instruction name []
    | c :: _ => if isBlank c then instruction name (operands rest) else .error .unknownMnemonic

end Asm

/-- One line of assembly: `none` for a line that holds no command (R59). -/
def parseLine (line : List Char) : Except AsmError (Option Instr) :=
  let text := Asm.trim (line.takeWhile fun c => c != ';')
  if text = [] then .ok none else (Asm.commandOf text).map some

/-- The command words of a program, one line a command (10_state.md R14, 30_encoding.md R59). -/
def assemble : List (List Char) → Except AsmError (List CmdWord)
  | [] => .ok []
  | l :: ls =>
    match parseLine l with
    | .error e => .error e
    | .ok none => assemble ls
    | .ok (some i) => (assemble ls).map fun ws => encode i :: ws

/-- A hexadecimal digit in capitals. -/
def hexDigit (v : Nat) : Char := if v < 10 then Char.ofNat (48 + v) else Char.ofNat (55 + v)

/-- A command word as R59 writes it: 20 hexadecimal digits, most significant first. -/
def hexWord (w : CmdWord) : List Char :=
  (List.range 20).map fun j => hexDigit (w.toNat / 16 ^ (19 - j) % 16)

end Sys2Proof.Machine
end

