-- ==== Sys2Proof/Safety.lean ====
section
/-! DEFINITION. The words the statements use: bit sequences (20_memory.md R38, R39), the invariants of 10_state.md R23, R24 and R26,
what a trace says has crossed the boundary, and runs of commands. -/

namespace Sys2Proof.Machine

/-! ## Bit sequences -/

/-- The `n` bits of a chunk with value `v`: `v[n-1], ..., v[0]` (R38). -/
def bitsOf (v : Nat) : Nat → List Bool
  | 0 => []
  | n + 1 => v.testBit n :: bitsOf v n

/-- The bit sequence of a list of bytes, most significant bit of the first byte first (R39). -/
def bitsOfBytes (l : List Byte) : List Bool := l.flatMap fun b => bitsOf b.toNat 8

/-- The bits a channel holds, the earliest first (10_state.md R15, R19). -/
def Channel.bits (c : Channel) : List Bool := bitsOf c.buf.toNat c.cnt

/-! ## Invariants -/

/-- INV-COUNT, INV-ZERO-ABOVE and the last part of INV-LATCH for one channel (R23, R24, R26). -/
abbrev Channel.Inv (c : Channel) : Prop :=
  c.cnt ≤ Config.accMax ∧ c.buf.toNat < 2 ^ c.cnt ∧ (c.err ≠ .none → c.buf = 0#64 ∧ c.cnt = 0)

/-- The invariants of both channels, and that the writer never latches UNEXPECTED_EOI (R21). -/
abbrev State.Inv (s : State) : Prop :=
  s.reader.Inv ∧ s.writer.Inv ∧ s.writer.err ≠ .unexpectedEoi

/-! ## What a trace says -/

/-- The responses of a trace, oldest first. -/
def responsesOf (l : List Event) : List Response :=
  l.filterMap fun e => match e with
    | .response r => some r
    | .fill _ _ | .drain _ _ _ | .sync _ _ | .reset | .abandoned _ _ => none

/-- The bytes all Fills of a trace delivered, oldest first. -/
def deliveredBytes (l : List Event) : List Byte :=
  l.flatMap fun e => match e with
    | .fill _ a => a.delivery.bytes
    | .drain _ _ _ | .sync _ _ | .response _ | .reset | .abandoned _ _ => []

/-- The bytes all Drains of a trace handed over, oldest first. -/
def drainedBytes (l : List Event) : List Byte :=
  l.flatMap fun e => match e with
    | .drain _ bytes _ => bytes
    | .fill _ _ | .sync _ _ | .response _ | .reset | .abandoned _ _ => []

/-- The transactions of a trace, in order, without their answers (R37). -/
def requestsOf (l : List Event) : List Request :=
  l.filterMap fun e => match e with
    | .fill h _ => some (.fill h)
    | .drain h bytes _ => some (.drain h bytes)
    | .sync h _ => some (.sync h)
    | .response _ | .reset | .abandoned _ _ => none

/-! ## Classes of instructions -/

/-- The commands of the reader channel (R52). -/
def isReaderCommand : Instr → Bool
  | .rd _ | .rbind _ | .rpoll => true
  | .wr _ _ | .flush | .wbind _ | .wpoll => false

/-! ## Runs of commands -/

/-- The commands of a list, executed in order, lead from one state to another (00_scope.md R12). -/
def Runs : List Instr → State → State → Prop
  | [], s, t => t = s
  | i :: is, s, t => ∃ m, exec i s = .next m ∧ Runs is m t

/-- The events between two states of one run. -/
def newEvents (s t : State) : List Event := t.trace.drop s.trace.length

/-- The bits the successful reads of a run returned, in order: each RD with its response (R38, R68). -/
def returnedBits : List Instr → List Response → List Bool
  | .rd n :: is, r :: rs =>
    (if r.status = .ok then bitsOf r.value.toNat n.toNat else []) ++ returnedBits is rs
  | _ :: is, _ :: rs => returnedBits is rs
  | _, _ => []

/-- `Q` of R78: the bits of the writes in order, each FLUSH padding to a multiple of 8 with zero bits. A write whose count is
illegal contributes nothing (R80). -/
def writtenBits : List Instr → List Bool → List Bool
  | [], q => q
  | .wr x n :: is, q => writtenBits is (if countLegal n then q ++ bitsOf x.toNat n.toNat else q)
  | .flush :: is, q => writtenBits is (q ++ List.replicate (padding q.length) false)
  | _ :: is, q => writtenBits is q

/-! ## The reference environments of 20_memory.md R30 and R33 -/

/-- The handle names a reference input stream that still holds `rest` and then ends as `ending` says (R30). -/
def InputSide.RefersToUntil (e : InputSide) (h : Handle) (rest : List Byte) (ending : Ending) : Prop :=
  ∃ i st, e.stream h = some (i, st) ∧ st.script = [] ∧ st.ending = ending ∧ st.pos ≤ st.data.length ∧
    st.data.drop st.pos = rest

/-- The handle names a reference input stream that still holds `rest` and ends with EOF (R30). -/
def InputSide.RefersTo (e : InputSide) (h : Handle) (rest : List Byte) : Prop := e.RefersToUntil h rest .eof

/-- The handle names a reference output stream that has accepted `bytes` and is not scripted to fail (R33). -/
def OutputSide.RefersTo (e : OutputSide) (h : Handle) (bytes : List Byte) : Prop :=
  ∃ i st, e.stream h = some (i, st) ∧ st.drains = [] ∧ st.syncs = [] ∧ st.accepted = bytes

/-! ## The frame of a transaction -/

/-- The second side differs from the first at most in the stream the handle names: the handle map, every other place, and what any
handle of another place names are the same, and no free answer was drawn if the stream is known. -/
def InputSide.SameButFor (e : InputSide) (h : Handle) (e' : InputSide) : Prop :=
  e'.handles = e.handles ∧ e'.streams.length = e.streams.length ∧
  (∀ j, (∀ st, e.stream h ≠ some (j, st)) → e'.streams[j]? = e.streams[j]?) ∧
  (∀ h', (∀ i st st', e.stream h = some (i, st) → e.stream h' ≠ some (i, st')) → e'.stream h' = e.stream h') ∧
  (e.stream h ≠ none → e'.asked = e.asked)

/-- The same for the output side. -/
def OutputSide.SameButFor (e : OutputSide) (h : Handle) (e' : OutputSide) : Prop :=
  e'.handles = e.handles ∧ e'.streams.length = e.streams.length ∧
  (∀ j, (∀ st, e.stream h ≠ some (j, st)) → e'.streams[j]? = e.streams[j]?) ∧
  (∀ h', (∀ i st st', e.stream h = some (i, st) → e.stream h' ≠ some (i, st')) → e'.stream h' = e.stream h') ∧
  (e.stream h ≠ none → e'.asked = e.asked)

/-! ## Assembler text (30_encoding.md R59) -/

/-- A numeral in a base, its digits most significant first. -/
def numeral {base : Nat} (ds : List (Fin base)) : List Char := ds.map fun d => hexDigit d.val

/-- The number a numeral stands for. -/
def numeralValue {base : Nat} (ds : List (Fin base)) : Nat := ds.foldl (fun v d => base * v + d.val) 0

/-- The text is a count operand with value `n`: a decimal integer. -/
def SpellsCount (text : List Char) (n : Int) : Prop :=
  ∃ ds : List (Fin 10), ds ≠ [] ∧
    ((text = numeral ds ∧ n = numeralValue ds) ∨ (text = '-' :: numeral ds ∧ n = -(numeralValue ds : Int)))

/-- The text is an unsigned literal with value `v`: decimal, `0x...` or `0b...`. -/
def SpellsWord (text : List Char) (v : Nat) : Prop :=
  (∃ ds : List (Fin 10), ds ≠ [] ∧ text = numeral ds ∧ v = numeralValue ds) ∨
  (∃ ds : List (Fin 16), ds ≠ [] ∧ text = '0' :: 'x' :: numeral ds ∧ v = numeralValue ds) ∨
  (∃ ds : List (Fin 2), ds ≠ [] ∧ text = '0' :: 'b' :: numeral ds ∧ v = numeralValue ds)

end Sys2Proof.Machine
end

