-- ==== Sys2Proof/Certificates/Slice0/Obligations.lean ====
section
/-! DEFINITION. The statements about the machine, taken from the numbered rules of spec/. Bits are spoken of as in
20_memory.md R38: `bitsOf v n` is the chunk of `n` bits with value `v`, and `Channel.bits` is what a channel holds. -/

open Sys2Proof Sys2Proof.Machine

/-! ## Encoding -/

/-- R49, R52 to R55, R59: the canonical word of every instruction that has one decodes to that instruction. -/
def Obligations.EncodeThenDecodeIsIdentity : Prop :=
  ∀ i : Instr, i.wellFormed = true → decode (encode i) = .ok i

/-- R49, R52 to R55: every word is its four fields in their order, and a word with `rsv` zero is what `packCommand` builds; with `rsv` zero each defined opcode selects its instruction, the count is the
two's complement reading of its field, the value is taken as it stands, and the unused fields are ignored. -/
def Obligations.DecodeReadsTheFieldsOfEveryWord : Prop :=
  (∀ w : CmdWord, w = w.extractLsb' 76 4 ++ w.extractLsb' 72 4 ++ w.extractLsb' 64 8 ++ w.extractLsb' 0 64) ∧
  (∀ w : CmdWord, w.extractLsb' 72 4 = 0#4 →
    w = packCommand (w.extractLsb' 76 4) (w.extractLsb' 64 8) (w.extractLsb' 0 64)) ∧
  ∀ (c : BitVec 8) (v : Word),
    decode (packCommand 0x1#4 c v) = .ok (.rd c.toInt) ∧
    decode (packCommand 0x2#4 c v) = .ok (.wr v c.toInt) ∧
    decode (packCommand 0x3#4 c v) = .ok .flush ∧
    decode (packCommand 0x4#4 c v) = .ok (.rbind v) ∧
    decode (packCommand 0x5#4 c v) = .ok (.wbind v) ∧
    decode (packCommand 0x6#4 c v) = .ok .rpoll ∧
    decode (packCommand 0x7#4 c v) = .ok .wpoll

/-- R56: a word is illegal exactly when `op` is 0x0 or 0x8 to 0xF, or `rsv` is not zero. -/
def Obligations.IllegalWordsAreExactlyThoseOfTheRule : Prop :=
  ∀ w : CmdWord, (∃ e, decode w = .error e) ↔
    (w.extractLsb' 76 4 = 0#4 ∨ 8 ≤ (w.extractLsb' 76 4).toNat ∨ w.extractLsb' 72 4 ≠ 0#4)

/-- R49, R52, R56: words written out from the encoding table decode to what they stand for. -/
def Obligations.SampleWordsDecode : Prop :=
  decode 0x1003DEADBEEF00000001#80 = .ok (.rd 3) ∧
  decode 0x10FF0000000000000000#80 = .ok (.rd (-1)) ∧
  decode 0x20040000000000000012#80 = .ok (.wr 0x12#64 4) ∧
  decode 0x30FF123456789ABCDEF0#80 = .ok .flush ∧
  decode 0x4041000000000000002A#80 = .ok (.rbind 42#64) ∧
  decode 0x5000FFFFFFFFFFFFFFFF#80 = .ok (.wbind 0xFFFFFFFFFFFFFFFF#64) ∧
  decode 0x60000000000000000000#80 = .ok .rpoll ∧
  decode 0x70000000000000000000#80 = .ok .wpoll ∧
  decode 0x00000000000000000000#80 = .error .undefinedOpcode ∧
  decode 0x28410000000000000000#80 = .error .reservedField

/-- R50, R51: the status numbers are 0 (OK), 1 (INVALID_COUNT), 2 (UNEXPECTED_EOI), 3 (TRANSPORT) and 7 (ILLEGAL_COMMAND), so never
4, 5 or 6; and the response word holds the status number, the code and the value in its three fields. -/
def Obligations.ResponseWordHoldsItsFields : Prop :=
  Status.number .ok = 0#3 ∧ Status.number .invalidCount = 1#3 ∧ Status.number .unexpectedEoi = 2#3 ∧
  Status.number .transport = 3#3 ∧ Status.number .illegalCommand = 7#3 ∧
  ∀ r : Response, r.word.extractLsb' 96 3 = r.status.number ∧ r.word.extractLsb' 64 32 = r.code ∧
    r.word.extractLsb' 0 64 = r.value ∧ r.status.number ∈ [0#3, 1#3, 2#3, 3#3, 7#3]

/-- R59: what a line of assembly stands for always has a command word, so a count outside `[-128, 127]` is refused. -/
def Obligations.AssemblerAcceptsOnlyWellFormed : Prop :=
  ∀ (line : List Char) (i : Instr), parseLine line = .ok (some i) → i.wellFormed = true

/-- R59, R60: the lines of the table and the call spellings are read as their commands; a count outside `[-128, 127]` and a value of
`2^64` or more are refused; a comment changes nothing. The shape of blanks, digits and calls is the model's (log 16). -/
def Obligations.AssemblerReadsEachCommand : Prop :=
  (∀ (c : List Char) (n : Int), SpellsCount c n →
    (-128 ≤ n ∧ n ≤ 127 → parseLine ("RD ".toList ++ c) = .ok (some (.rd n)) ∧
      parseLine ("read(".toList ++ c ++ [')']) = .ok (some (.rd n))) ∧
    (n < -128 ∨ 127 < n → (∃ e, parseLine ("RD ".toList ++ c) = .error e) ∧
      ∃ e, parseLine ("read(".toList ++ c ++ [')']) = .error e)) ∧
  (∀ (x c : List Char) (v : Nat) (n : Int), SpellsWord x v → SpellsCount c n →
    (v < 2 ^ 64 → -128 ≤ n ∧ n ≤ 127 →
      parseLine ("WR ".toList ++ x ++ ", ".toList ++ c) = .ok (some (.wr (BitVec.ofNat 64 v) n)) ∧
      parseLine ("write(".toList ++ x ++ ", ".toList ++ c ++ [')']) = .ok (some (.wr (BitVec.ofNat 64 v) n))) ∧
    (2 ^ 64 ≤ v ∨ n < -128 ∨ 127 < n → (∃ e, parseLine ("WR ".toList ++ x ++ ", ".toList ++ c) = .error e) ∧
      ∃ e, parseLine ("write(".toList ++ x ++ ", ".toList ++ c ++ [')']) = .error e)) ∧
  (∀ (x : List Char) (v : Nat), SpellsWord x v →
    (v < 2 ^ 64 → parseLine ("RBIND ".toList ++ x) = .ok (some (.rbind (BitVec.ofNat 64 v))) ∧
      parseLine ("WBIND ".toList ++ x) = .ok (some (.wbind (BitVec.ofNat 64 v)))) ∧
    (2 ^ 64 ≤ v → (∃ e, parseLine ("RBIND ".toList ++ x) = .error e) ∧ ∃ e, parseLine ("WBIND ".toList ++ x) = .error e)) ∧
  parseLine "FLUSH".toList = .ok (some .flush) ∧ parseLine "flush()".toList = .ok (some .flush) ∧
  parseLine "RPOLL".toList = .ok (some .rpoll) ∧ parseLine "WPOLL".toList = .ok (some .wpoll) ∧
  ∀ line comment : List Char, parseLine (line ++ ';' :: comment) = parseLine line

/-! ## The step, the port and reset -/

/-- R12, R14, R58: when the next word on the port decodes to an instruction, a step executes exactly that instruction, with the
word taken from the port. -/
def Obligations.StepExecutesTheDecodedInstruction : Prop :=
  ∀ (s : State) (w : CmdWord) (rest : List PortInput) (i : Instr), s.port = .command w :: rest → decode w = .ok i →
    step s = exec i { s with port := rest }

/-- R56, R83: an illegal word is answered `(ILLEGAL_COMMAND, 0, 0)` from any state, latched or not, and changes nothing else. -/
def Obligations.IllegalCommandIsAnsweredWithoutEffect : Prop :=
  ∀ (s : State) (w : CmdWord) (rest : List PortInput), s.port = .command w :: rest →
    (w.extractLsb' 76 4 = 0#4 ∨ 8 ≤ (w.extractLsb' 76 4).toNat ∨ w.extractLsb' 72 4 ≠ 0#4) →
    step s = .next { s with port := rest, trace := s.trace ++ [.response ⟨.illegalCommand, 0#32, 0#64⟩] }

/-- The MODEL'S choice (log 12), in keeping with R95: with nothing on the port a step changes nothing. -/
def Obligations.IdleUnitKeepsItsState : Prop :=
  ∀ s : State, s.port = [] → step s = .next s

/-- R97, R98: hardware reset leaves the unit's eight fields at their reset values, which are those of `RBIND 0` and `WBIND 0`; it
issues no transaction, gives no response and leaves the streams as they are. `State.reset` has the same eight values. -/
def Obligations.HardwareResetLeavesTheResetState : Prop :=
  (∀ (s : State) (rest : List PortInput), s.port = .reset :: rest →
    ∃ t, step s = .next t ∧
      t.reader = ⟨0#64, 0, .none, 0#64⟩ ∧ t.writer = ⟨0#64, 0, .none, 0#64⟩ ∧
      t.reader = s.reader.rebind 0#64 ∧ t.writer = s.writer.rebind 0#64 ∧
      t.inputs = s.inputs ∧ t.outputs = s.outputs ∧ t.port = rest ∧
      requestsOf t.trace = requestsOf s.trace ∧ responsesOf t.trace = responsesOf s.trace) ∧
  State.reset.reader = ⟨0#64, 0, .none, 0#64⟩ ∧ State.reset.writer = ⟨0#64, 0, .none, 0#64⟩

/-- R96, R97 and U6: a command cut off by hardware reset gives no response and leaves the reset state of the unit; where none of
its transactions was performed, the streams are as before. Reset before it issued any is the same reset. That a port entry with
flags stands for such a cut is the model's reading (log 7). -/
def Obligations.CommandCutByResetGivesNoResponse : Prop :=
  ∀ (s : State) (w : CmdWord) (performed : List Bool) (rest : List PortInput),
    s.port = .cutByReset w performed :: rest →
    ∃ t, step s = .next t ∧
      t.reader = ⟨0#64, 0, .none, 0#64⟩ ∧ t.writer = ⟨0#64, 0, .none, 0#64⟩ ∧ t.port = rest ∧
      responsesOf t.trace = responsesOf s.trace ∧
      ((∀ b ∈ performed, b = false) → t.inputs = s.inputs ∧ t.outputs = s.outputs)

/-- R96, U6, R34, R36, R73: a FLUSH with pending bits that is cut while its Sync is in flight has had its Drain performed: the stream
has accepted the padded bytes, and the Sync has or has not taken effect. The MODEL'S reading: the flags `[true, b]` stand for a
Drain carried out wholly and answered OK whatever the stream's script holds, and a Sync carried out or not (log 7, DEDUCED);
`synced` counts the bytes known to have reached the transport (log 8, DESIGN CHOICE). -/
def Obligations.FlushCutDuringItsSync : Prop :=
  ∀ (s : State) (w : CmdWord) (b : Bool) (rest : List PortInput) (i : Nat) (st : OutStream),
    s.port = .cutByReset w [true, b] :: rest → decode w = .ok .flush → s.writer.err = .none → s.writer.cnt ≠ 0 →
    s.outputs.stream s.writer.sid = some (i, st) →
    ∃ t st', step s = .next t ∧ t.outputs.stream s.writer.sid = some (i, st') ∧
      st'.accepted = st.accepted ++ flushBytes s.writer ∧
      st'.synced = (if b then st'.accepted.length else st.synced) ∧ t.inputs = s.inputs

/-- R96, U6: what the streams hold after a command that was cut with its first transaction performed: an RD whose Fill took the next 8
bytes of a reference stream, or one entry of a script; a WR whose Drain put its 8 bytes into the stream; a FLUSH whose Drain put the
padded bytes into it. No other stream changes. The MODEL'S reading of a performed transaction: log 7 (DEDUCED); that a script entry
is used up, silence included, and no data with it: log 18 (DESIGN CHOICE). -/
def Obligations.CutTransactionTakesEffectWholly : Prop :=
  (∀ (s : State) (w : CmdWord) (n : Int) (rest : List PortInput), s.port = .cutByReset w [true] :: rest →
    decode w = .ok (.rd n) → s.reader.err = .none → n ≤ 64 → (s.reader.cnt : Int) < n →
    ∃ t, step s = .next t ∧ t.outputs = s.outputs ∧ s.inputs.SameButFor s.reader.sid t.inputs ∧
      (∀ bytes ending, s.inputs.RefersToUntil s.reader.sid bytes ending →
        t.inputs.RefersToUntil s.reader.sid (bytes.drop 8) ending) ∧
      ∀ i st x script, s.inputs.stream s.reader.sid = some (i, st) → st.script = x :: script →
        t.inputs.stream s.reader.sid = some (i, { st with script := script })) ∧
  (∀ (s : State) (w : CmdWord) (x : Word) (n : Int) (rest : List PortInput) (i : Nat) (st : OutStream) (bytes : List Byte),
    s.port = .cutByReset w [true] :: rest → decode w = .ok (.wr x n) → s.writer.Inv → s.writer.err = .none →
    0 ≤ n → n ≤ 64 → 64 ≤ s.writer.cnt + n → s.outputs.stream s.writer.sid = some (i, st) →
    bitsOfBytes bytes = (s.writer.bits ++ bitsOf x.toNat n.toNat).take 64 →
    ∃ t st', step s = .next t ∧ t.inputs = s.inputs ∧ s.outputs.SameButFor s.writer.sid t.outputs ∧
      t.outputs.stream s.writer.sid = some (i, st') ∧ st'.accepted = st.accepted ++ bytes ∧ st'.synced = st.synced) ∧
  ∀ (s : State) (w : CmdWord) (rest : List PortInput) (i : Nat) (st : OutStream) (p : Nat) (bytes : List Byte),
    s.port = .cutByReset w [true] :: rest → decode w = .ok .flush → s.writer.Inv → s.writer.err = .none →
    s.writer.cnt ≠ 0 → s.outputs.stream s.writer.sid = some (i, st) → p < 8 → (s.writer.cnt + p) % 8 = 0 →
    bitsOfBytes bytes = s.writer.bits ++ List.replicate p false →
    ∃ t st', step s = .next t ∧ t.inputs = s.inputs ∧ s.outputs.SameButFor s.writer.sid t.outputs ∧
      t.outputs.stream s.writer.sid = some (i, st') ∧ st'.accepted = st.accepted ++ bytes ∧ st'.synced = st.synced

/-! ## Invariants -/

/-- R99 (a): the invariants hold right after reset. -/
def Obligations.InvariantsHoldAfterReset : Prop := State.reset.Inv

/-- R23, R24: every step keeps INV-COUNT and INV-ZERO-ABOVE on both channels; and, as R21 and the last sentence but one of R26 say,
a latched channel is empty and the writer never latches UNEXPECTED_EOI. -/
def Obligations.EveryStepKeepsTheInvariants : Prop :=
  ∀ s t : State, s.Inv → step s = .next t → t.Inv

/-- R26: a set latch stays until RBIND (reader) or WBIND (writer) or a hardware reset; while it is set, the channel's accumulator
does not change and none of its stream transactions is issued. -/
def Obligations.LatchStaysUntilRebindOrReset : Prop :=
  ∀ s t : State, step s = .next t →
    (∀ rest, s.port ≠ .reset :: rest) → (∀ w l rest, s.port ≠ .cutByReset w l :: rest) →
    (s.reader.err ≠ .none → (∀ w rest h, s.port = .command w :: rest → decode w ≠ .ok (.rbind h)) →
      t.reader = s.reader ∧ t.inputs = s.inputs ∧ (∀ h, Request.fill h ∉ requestsOf (newEvents s t)) ∧
      deliveredBytes t.trace = deliveredBytes s.trace) ∧
    (s.writer.err ≠ .none → (∀ w rest h, s.port = .command w :: rest → decode w ≠ .ok (.wbind h)) →
      t.writer = s.writer ∧ t.outputs = s.outputs ∧
      (∀ h bytes, Request.drain h bytes ∉ requestsOf (newEvents s t) ∧ Request.sync h ∉ requestsOf (newEvents s t)) ∧
      drainedBytes t.trace = drainedBytes s.trace)

/-! ## What every command does -/

/-- R43, R50, R82: every command that completes adds its transactions and then exactly one response to the trace; the code is 0
unless the status is TRANSPORT, and the value is 0 unless a read succeeded. -/
def Obligations.EveryCommandGivesExactlyOneResponse : Prop :=
  ∀ (i : Instr) (s t : State), exec i s = .next t →
    ∃ (before : List Event) (r : Response), t.trace = s.trace ++ before ++ [.response r] ∧ responsesOf before = [] ∧
      (r.status ≠ .transport → r.code = 0#32) ∧
      (r.value ≠ 0#64 → r.status = .ok ∧ ∃ n, i = .rd n) ∧ r.status ≠ .illegalCommand

/-- The table of R37: the transactions of every completed command. A Drain carries 8 bytes (WR) or `ceil(cnt/8)` bytes (FLUSH), and
FLUSH issues its Sync only when the Drain answered OK; the other commands, an illegal word and a hardware reset issue none. -/
def Obligations.CommandsIssueTheTransactionsOfTheTable : Prop :=
  (∀ (n : Int) (s t : State), exec (.rd n) s = .next t →
    requestsOf (newEvents s t) =
      if 0 ≤ n ∧ n ≤ 64 ∧ s.reader.err = .none ∧ s.reader.cnt < n then [.fill s.reader.sid] else []) ∧
  (∀ (x : Word) (n : Int) (s t : State), exec (.wr x n) s = .next t →
    ∃ bytes, bytes.length = 8 ∧ requestsOf (newEvents s t) =
      if 0 ≤ n ∧ n ≤ 64 ∧ s.writer.err = .none ∧ 64 ≤ s.writer.cnt + n then [.drain s.writer.sid bytes] else []) ∧
  (∀ s t : State, exec .flush s = .next t →
    (s.writer.err ≠ .none → requestsOf (newEvents s t) = []) ∧
    (s.writer.err = .none → s.writer.cnt = 0 → requestsOf (newEvents s t) = [.sync s.writer.sid]) ∧
    (s.writer.err = .none → s.writer.cnt ≠ 0 → ∃ bytes a e, bytes.length = (s.writer.cnt + 7) / 8 ∧
      s.outputs.drain s.writer.sid bytes = some (a, e) ∧
      requestsOf (newEvents s t) =
        if a = .ok then [.drain s.writer.sid bytes, .sync s.writer.sid] else [.drain s.writer.sid bytes])) ∧
  (∀ (i : Instr) (s t : State), i = .rpoll ∨ i = .wpoll ∨ (∃ h, i = .rbind h) ∨ (∃ h, i = .wbind h) →
    exec i s = .next t → requestsOf (newEvents s t) = []) ∧
  ∀ s t : State, step s = .next t →
    (∃ rest, s.port = .reset :: rest) ∨ (∃ w rest e, s.port = .command w :: rest ∧ decode w = .error e) →
    requestsOf (newEvents s t) = []

/-- R25: a command touches its own channel and its own stream side only, and never the port. -/
def Obligations.CommandsLeaveTheOtherChannelAlone : Prop :=
  ∀ (i : Instr) (s t : State), exec i s = .next t →
    t.port = s.port ∧
    (isReaderCommand i = true → t.writer = s.writer ∧ t.outputs = s.outputs) ∧
    (isReaderCommand i = false → t.reader = s.reader ∧ t.inputs = s.inputs)

/-- R25 and D22: what a command does depends on its own channel and its own stream side only. -/
def Obligations.CommandsDependOnTheirOwnChannelOnly : Prop :=
  ∀ (i : Instr) (s s' : State),
    (isReaderCommand i = true → s.reader = s'.reader → s.inputs = s'.inputs →
      (∀ f, exec i s = .fault f → exec i s' = .fault f) ∧
      ∀ t, exec i s = .next t → ∃ t', exec i s' = .next t' ∧ t'.reader = t.reader ∧ t'.inputs = t.inputs ∧
        newEvents s' t' = newEvents s t) ∧
    (isReaderCommand i = false → s.writer = s'.writer → s.outputs = s'.outputs →
      (∀ f, exec i s = .fault f → exec i s' = .fault f) ∧
      ∀ t, exec i s = .next t → ∃ t', exec i s' = .next t' ∧ t'.writer = t.writer ∧ t'.outputs = t.outputs ∧
        newEvents s' t' = newEvents s t)

/-- R12: a command to one channel commutes with a command to the other: the same state but for the order of the trace, and each
command's own events are the same. -/
def Obligations.ReaderAndWriterCommandsCommute : Prop :=
  ∀ (i j : Instr) (s m t : State), isReaderCommand i = true → isReaderCommand j = false →
    exec i s = .next m → exec j m = .next t →
    ∃ m' t', exec j s = .next m' ∧ exec i m' = .next t' ∧ { t' with trace := t.trace } = t ∧
      newEvents s m' = newEvents m t ∧ newEvents m' t' = newEvents s m

/-! ## Errors and the latch -/

/-- R80: a count outside `[0, 64]` is answered `(INVALID_COUNT, 0, 0)` by RD and WR, latched channel or not, and nothing else
changes. -/
def Obligations.InvalidCountChangesNothing : Prop :=
  ∀ (s : State) (x : Word) (n : Int), n < 0 ∨ 64 < n →
    exec (.rd n) s = .next { s with trace := s.trace ++ [.response ⟨.invalidCount, 0#32, 0#64⟩] } ∧
    exec (.wr x n) s = .next { s with trace := s.trace ++ [.response ⟨.invalidCount, 0#32, 0#64⟩] }

/-- R85: a latched channel answers RD, WR and FLUSH, given a legal count, with its latched error, and does nothing else; RD 0 and
WR x, 0 included. -/
def Obligations.LatchedChannelAnswersItsError : Prop :=
  ∀ (s : State) (x : Word) (n : Int), 0 ≤ n → n ≤ 64 →
    (s.reader.err = .unexpectedEoi →
      exec (.rd n) s = .next { s with trace := s.trace ++ [.response ⟨.unexpectedEoi, 0#32, 0#64⟩] }) ∧
    (∀ c, s.reader.err = .transport c →
      exec (.rd n) s = .next { s with trace := s.trace ++ [.response ⟨.transport, c, 0#64⟩] }) ∧
    (∀ c, s.writer.err = .transport c →
      exec (.wr x n) s = .next { s with trace := s.trace ++ [.response ⟨.transport, c, 0#64⟩] } ∧
      exec .flush s = .next { s with trace := s.trace ++ [.response ⟨.transport, c, 0#64⟩] })

/-- R84, R88: a command sets a clear latch only by failing: RD on the reader, WR or FLUSH on the writer, where only TRANSPORT is
latched; the accumulator is then empty, the handle is kept, and the response reports the same error. -/
def Obligations.OnlyFailuresSetTheLatch : Prop :=
  ∀ (i : Instr) (s t : State), exec i s = .next t →
    (s.reader.err = .none → t.reader.err ≠ .none →
      (∃ n, i = .rd n) ∧ t.reader.buf = 0#64 ∧ t.reader.cnt = 0 ∧ t.reader.sid = s.reader.sid ∧
        t.trace.getLast? = some (.response t.reader.err.response)) ∧
    (s.writer.err = .none → t.writer.err ≠ .none →
      ((∃ x n, i = .wr x n) ∨ i = .flush) ∧ (∃ c, t.writer.err = .transport c) ∧
        t.writer.buf = 0#64 ∧ t.writer.cnt = 0 ∧ t.writer.sid = s.writer.sid ∧
        t.trace.getLast? = some (.response t.writer.err.response))

/-- R107, U11: a command whose stream never answers has no next step: RD on the slow path, WR when it emits, FLUSH at its Drain, and
at its Sync with and without pending bits. That the machine then ends in a fault with a name is the MODEL'S choice (log 11,
DESIGN CHOICE). -/
def Obligations.SilentStreamsStopTheUnit : Prop :=
  (∀ (s : State) (n : Int), s.reader.err = .none → 0 ≤ n → n ≤ 64 → s.reader.cnt < n.toNat →
    s.inputs.fill s.reader.sid = none → exec (.rd n) s = .fault .inputNeverAnswers) ∧
  (∀ (s : State) (x : Word) (n : Int), s.writer.err = .none → 0 ≤ n → n ≤ 64 → 64 ≤ s.writer.cnt + n.toNat →
    (∀ bytes, s.outputs.drain s.writer.sid bytes = none) → exec (.wr x n) s = .fault .outputNeverAnswers) ∧
  (∀ s : State, s.writer.err = .none → s.writer.cnt ≠ 0 →
    (∀ bytes, s.outputs.drain s.writer.sid bytes = none) → exec .flush s = .fault .outputNeverAnswers) ∧
  (∀ s : State, s.writer.err = .none → s.writer.cnt = 0 →
    s.outputs.sync s.writer.sid = none → exec .flush s = .fault .outputNeverAnswers) ∧
  (∀ s : State, s.writer.err = .none → s.writer.cnt ≠ 0 →
    (∀ bytes, ∃ e, s.outputs.drain s.writer.sid bytes = some (.ok, e) ∧ e.sync s.writer.sid = none) →
    exec .flush s = .fault .outputNeverAnswers)

/-! ## RD, RBIND, RPOLL -/

/-- R61, R62, R65: a read that the accumulator covers returns its earliest bits, keeps the rest, and asks the stream nothing. -/
def Obligations.ReadFastPath : Prop :=
  ∀ (s : State) (n : Int), s.reader.Inv → s.reader.err = .none → 0 ≤ n → n ≤ s.reader.cnt →
    ∃ (t : State) (v : Word), exec (.rd n) s = .next t ∧
      t = { s with reader := t.reader, trace := s.trace ++ [.response ⟨.ok, 0#32, v⟩] } ∧
      bitsOf v.toNat n.toNat ++ t.reader.bits = s.reader.bits ∧ v.toNat < 2 ^ n.toNat ∧
      t.reader.cnt + n.toNat = s.reader.cnt ∧ t.reader.buf.toNat < 2 ^ t.reader.cnt ∧
      t.reader.err = .none ∧ t.reader.sid = s.reader.sid

/-- R57, R65 (a), R71: RD 0 and WR x, 0 on an unlatched channel answer OK and change nothing. -/
def Obligations.ZeroCountsAreNoOperations : Prop :=
  ∀ (s : State) (x : Word), s.Inv →
    (s.reader.err = .none →
      exec (.rd 0) s = .next { s with trace := s.trace ++ [.response ⟨.ok, 0#32, 0#64⟩] }) ∧
    (s.writer.err = .none →
      exec (.wr x 0) s = .next { s with trace := s.trace ++ [.response ⟨.ok, 0#32, 0#64⟩] })

/-- R61, R63, R65: a read beyond the accumulator issues one Fill; when that brings enough bits, whatever OK or EOF it says, the
result is the held bits followed by the first bits delivered, and the accumulator holds the rest. -/
def Obligations.ReadSlowPath : Prop :=
  ∀ (s : State) (n : Int) (a : FillAnswer) (e : InputSide), s.reader.Inv → s.reader.err = .none → n ≤ 64 →
    (s.reader.cnt : Int) < n → s.inputs.fill s.reader.sid = some (a, e) → (∀ c, a.term ≠ .err c) →
    n ≤ s.reader.cnt + 8 * a.delivery.bytes.length →
    ∃ (t : State) (v : Word), exec (.rd n) s = .next t ∧
      t = { s with reader := t.reader, inputs := e,
                   trace := s.trace ++ [.fill s.reader.sid a, .response ⟨.ok, 0#32, v⟩] } ∧
      bitsOf v.toNat n.toNat ++ t.reader.bits = s.reader.bits ++ bitsOfBytes a.delivery.bytes ∧
      v.toNat < 2 ^ n.toNat ∧ t.reader.cnt + n.toNat = s.reader.cnt + 8 * a.delivery.bytes.length ∧
      t.reader.buf.toNat < 2 ^ t.reader.cnt ∧ t.reader.err = .none ∧ t.reader.sid = s.reader.sid

/-- R61, R64, R81, R84: a Fill that answers OK or EOF with too few bits makes the read fail with UNEXPECTED_EOI: latched, the held
bits lost, value 0. -/
def Obligations.ReadShortfallLatchesUnexpectedEoi : Prop :=
  ∀ (s : State) (n : Int) (a : FillAnswer) (e : InputSide), s.reader.err = .none → n ≤ 64 →
    s.inputs.fill s.reader.sid = some (a, e) → (∀ c, a.term ≠ .err c) →
    s.reader.cnt + 8 * a.delivery.bytes.length < n →
    exec (.rd n) s = .next { s with
      reader := ⟨0#64, 0, .unexpectedEoi, s.reader.sid⟩
      inputs := e
      trace := s.trace ++ [.fill s.reader.sid a, .response ⟨.unexpectedEoi, 0#32, 0#64⟩] }

/-- R61, R82, R84, R87: a Fill that answers ERR makes the read fail with TRANSPORT and the stream's own code, whatever bytes it
delivered. -/
def Obligations.ReadTransportErrorLatchesItsCode : Prop :=
  ∀ (s : State) (n : Int) (a : FillAnswer) (e : InputSide) (c : ErrorCode), s.reader.err = .none → n ≤ 64 →
    (s.reader.cnt : Int) < n → s.inputs.fill s.reader.sid = some (a, e) → a.term = .err c →
    exec (.rd n) s = .next { s with
      reader := ⟨0#64, 0, .transport c, s.reader.sid⟩
      inputs := e
      trace := s.trace ++ [.fill s.reader.sid a, .response ⟨.transport, c, 0#64⟩] }

/-- R66, R76: RBIND and WBIND put their channel into the cleared state bound to the new handle, from any state, answer OK, issue no
transaction and touch nothing else. -/
def Obligations.BindClearsItsChannel : Prop :=
  ∀ (s : State) (h : Handle),
    exec (.rbind h) s = .next { s with
      reader := ⟨0#64, 0, .none, h⟩, trace := s.trace ++ [.response ⟨.ok, 0#32, 0#64⟩] } ∧
    exec (.wbind h) s = .next { s with
      writer := ⟨0#64, 0, .none, h⟩, trace := s.trace ++ [.response ⟨.ok, 0#32, 0#64⟩] }

/-- R67, R77: RPOLL and WPOLL report the latch of their channel, `(OK, 0, 0)` when it is clear, and change nothing else. -/
def Obligations.PollReportsTheLatch : Prop :=
  ∀ s : State,
    (∃ r, exec .rpoll s = .next { s with trace := s.trace ++ [.response r] } ∧
      (s.reader.err = .none → r = ⟨.ok, 0#32, 0#64⟩) ∧
      (s.reader.err = .unexpectedEoi → r = ⟨.unexpectedEoi, 0#32, 0#64⟩) ∧
      ∀ c, s.reader.err = .transport c → r = ⟨.transport, c, 0#64⟩) ∧
    ∃ r, exec .wpoll s = .next { s with trace := s.trace ++ [.response r] } ∧
      (s.writer.err = .none → r = ⟨.ok, 0#32, 0#64⟩) ∧
      ∀ c, s.writer.err = .transport c → r = ⟨.transport, c, 0#64⟩

/-! ## WR, FLUSH -/

/-- R69, R70, R71: a write that stays below 64 bits appends the low `n` bits of its operand, most significant first, and asks the
stream nothing. -/
def Obligations.WriteAppendsWithoutEmission : Prop :=
  ∀ (s : State) (x : Word) (n : Int), s.writer.Inv → s.writer.err = .none → 0 ≤ n → s.writer.cnt + n < 64 →
    ∃ t : State, exec (.wr x n) s = .next t ∧
      t = { s with writer := t.writer, trace := s.trace ++ [.response ⟨.ok, 0#32, 0#64⟩] } ∧
      t.writer.bits = s.writer.bits ++ bitsOf x.toNat n.toNat ∧ t.writer.cnt = s.writer.cnt + n.toNat ∧
      t.writer.buf.toNat < 2 ^ t.writer.cnt ∧ t.writer.err = .none ∧ t.writer.sid = s.writer.sid

/-- R69, R70, R72: a write that reaches 64 bits hands the first 64 pending bits to the stream as 8 bytes, most significant first, and
keeps the rest, when the Drain answers OK. -/
def Obligations.WriteEmitsOneWord : Prop :=
  ∀ (s : State) (x : Word) (n : Int) (bytes : List Byte) (e : OutputSide), s.writer.Inv → s.writer.err = .none →
    0 ≤ n → n ≤ 64 → 64 ≤ s.writer.cnt + n →
    bitsOfBytes bytes = (s.writer.bits ++ bitsOf x.toNat n.toNat).take 64 →
    s.outputs.drain s.writer.sid bytes = some (.ok, e) →
    ∃ t : State, exec (.wr x n) s = .next t ∧
      t = { s with writer := t.writer, outputs := e,
                   trace := s.trace ++ [.drain s.writer.sid bytes .ok, .response ⟨.ok, 0#32, 0#64⟩] } ∧
      t.writer.bits = (s.writer.bits ++ bitsOf x.toNat n.toNat).drop 64 ∧
      t.writer.cnt + 64 = s.writer.cnt + n.toNat ∧
      t.writer.buf.toNat < 2 ^ t.writer.cnt ∧ t.writer.err = .none ∧ t.writer.sid = s.writer.sid

/-- R69, R72, R82, R84: when that Drain fails, the write answers TRANSPORT with the stream's code, and the writer is latched and
empty. -/
def Obligations.WriteDrainFailureLatches : Prop :=
  ∀ (s : State) (x : Word) (n : Int) (bytes : List Byte) (c : ErrorCode) (k : Nat) (e : OutputSide), s.writer.Inv →
    s.writer.err = .none → 0 ≤ n → n ≤ 64 → 64 ≤ s.writer.cnt + n →
    bitsOfBytes bytes = (s.writer.bits ++ bitsOf x.toNat n.toNat).take 64 →
    s.outputs.drain s.writer.sid bytes = some (.err c k, e) →
    exec (.wr x n) s = .next { s with
      writer := ⟨0#64, 0, .transport c, s.writer.sid⟩
      outputs := e
      trace := s.trace ++ [.drain s.writer.sid bytes (.err c k), .response ⟨.transport, c, 0#64⟩] }

/-- R73, R74: FLUSH with an empty accumulator issues the Sync alone and answers what the Sync says. -/
def Obligations.FlushOfAnEmptyWriterOnlySyncs : Prop :=
  ∀ (s : State) (e : OutputSide), s.writer.Inv → s.writer.err = .none → s.writer.cnt = 0 →
    (s.outputs.sync s.writer.sid = some (.ok, e) →
      exec .flush s = .next { s with
        outputs := e, trace := s.trace ++ [.sync s.writer.sid .ok, .response ⟨.ok, 0#32, 0#64⟩] }) ∧
    ∀ c, s.outputs.sync s.writer.sid = some (.err c, e) →
      exec .flush s = .next { s with
        writer := ⟨0#64, 0, .transport c, s.writer.sid⟩
        outputs := e
        trace := s.trace ++ [.sync s.writer.sid (.err c), .response ⟨.transport, c, 0#64⟩] }

/-- R41, R73, R74, R75: FLUSH with pending bits pads them with `p < 8` zero bits to whole bytes and drains those; a failed Drain
latches and no Sync follows; otherwise the Sync decides. The accumulator is empty in every case. -/
def Obligations.FlushPadsDrainsAndSyncs : Prop :=
  ∀ (s : State) (p : Nat) (bytes : List Byte), s.writer.Inv → s.writer.err = .none → s.writer.cnt ≠ 0 →
    p < 8 → (s.writer.cnt + p) % 8 = 0 → bitsOfBytes bytes = s.writer.bits ++ List.replicate p false →
    (∀ e e', s.outputs.drain s.writer.sid bytes = some (.ok, e) → e.sync s.writer.sid = some (.ok, e') →
      exec .flush s = .next { s with
        writer := ⟨0#64, 0, .none, s.writer.sid⟩
        outputs := e'
        trace := s.trace ++
          [.drain s.writer.sid bytes .ok, .sync s.writer.sid .ok, .response ⟨.ok, 0#32, 0#64⟩] }) ∧
    (∀ c k e, s.outputs.drain s.writer.sid bytes = some (.err c k, e) →
      exec .flush s = .next { s with
        writer := ⟨0#64, 0, .transport c, s.writer.sid⟩
        outputs := e
        trace := s.trace ++ [.drain s.writer.sid bytes (.err c k), .response ⟨.transport, c, 0#64⟩] }) ∧
    ∀ c e e', s.outputs.drain s.writer.sid bytes = some (.ok, e) → e.sync s.writer.sid = some (.err c, e') →
      exec .flush s = .next { s with
        writer := ⟨0#64, 0, .transport c, s.writer.sid⟩
        outputs := e'
        trace := s.trace ++
          [.drain s.writer.sid bytes .ok, .sync s.writer.sid (.err c), .response ⟨.transport, c, 0#64⟩] }

/-! ## Values, bytes and streams -/

/-- R9: `from_bytes_be` is the stated sum, a value of `8k` bits, and the inverse of `bytes_be` (R8) in both directions. -/
def Obligations.BytesAndValuesAreInverse : Prop :=
  (∀ l : List Byte, l.length ≤ 8 →
    fromBytesBe l = ∑ j : Fin l.length, l[j].toNat * 2 ^ (8 * (l.length - 1 - j)) ∧
    fromBytesBe l < 2 ^ (8 * l.length) ∧ bytesBe (fromBytesBe l) (8 * l.length) = l) ∧
  ∀ v n : Nat, n % 8 = 0 → n ≤ 64 → v < 2 ^ n →
    (bytesBe v n).length = n / 8 ∧ fromBytesBe (bytesBe v n) = v

/-- R8, R39: bit number `i` of the bits of a value is bit `7 - (i mod 8)` of byte number `i div 8`. -/
def Obligations.BytesCarryBitsMostSignificantFirst : Prop :=
  ∀ v n i : Nat, n % 8 = 0 → i < n →
    ∃ b, (bytesBe v n)[i / 8]? = some b ∧ b.toNat.testBit (7 - i % 8) = v.testBit (n - 1 - i) ∧
      (bitsOf v n)[i]? = some (v.testBit (n - 1 - i))

/-- R30: the reference input stream delivers the next `min(8, bytes left)` bytes and answers OK, and answers its ending, EOF or ERR with
its code, with no bytes once it is used up. -/
def Obligations.ReferenceInputDeliversUpToEight : Prop :=
  ∀ (e : InputSide) (h : Handle) (rest : List Byte) (ending : Ending), e.RefersToUntil h rest ending →
    ∃ a e', e.fill h = some (a, e') ∧ a.delivery.bytes = rest.take 8 ∧
      (rest ≠ [] → a.term = .ok) ∧ (rest = [] → ending = .eof → a.term = .eof) ∧
      (∀ c, rest = [] → ending = .err c → a.term = .err c) ∧
      e'.RefersToUntil h (rest.drop 8) ending ∧ e.SameButFor h e'

/-- R104: with the reference environment, a slow-path read fails with UNEXPECTED_EOI exactly when the stream holds fewer bits than
the read asks for beyond the accumulator; it always completes. -/
def Obligations.ShortfallExactlyWhenTheStreamIsExhausted : Prop :=
  ∀ (s : State) (n : Int) (rest : List Byte), s.reader.Inv → s.reader.err = .none → n ≤ 64 → (s.reader.cnt : Int) < n →
    s.inputs.RefersTo s.reader.sid rest →
    ∃ t, exec (.rd n) s = .next t ∧
      (s.reader.cnt + 8 * rest.length < n → t.reader.err = .unexpectedEoi) ∧
      (n ≤ s.reader.cnt + 8 * rest.length → t.reader.err = .none)

/-- R34, R35, U4: an answered Drain appends a prefix of its bytes to the stream it names, all of them when it answers OK, and every
prefix can be what a failed Drain has let through. -/
def Obligations.DrainAppendsAPrefix : Prop :=
  (∀ (e e' : OutputSide) (h : Handle) (bytes : List Byte) (a : DrainAnswer) (i : Nat) (st : OutStream),
    e.stream h = some (i, st) → e.drain h bytes = some (a, e') →
    ∃ st' p, e'.stream h = some (i, st') ∧ st'.accepted = st.accepted ++ p ∧ p <+: bytes ∧ (a = .ok → p = bytes) ∧
      st'.synced = st.synced ∧ e.SameButFor h e') ∧
  ∀ (bytes p : List Byte) (c : ErrorCode) (st : OutStream), p <+: bytes → ∃ k,
    ({ st with drains := [some (.err c k)] } : OutStream).drain bytes =
      some (.err c k, { st with drains := [], accepted := st.accepted ++ p })

/-- R29, R31, R34, R36: a Fill, Drain or Sync on one handle, answered, or cut off by a reset and performed (log 7), leaves the handle
map, every other stream of its side and what every other handle names as they were. -/
def Obligations.TransactionsLeaveOtherStreamsAlone : Prop :=
  (∀ (e e' : InputSide) (h : Handle) (a : FillAnswer), e.fill h = some (a, e') → e.SameButFor h e') ∧
  (∀ (e e' : OutputSide) (h : Handle) (bytes : List Byte) (a : DrainAnswer), e.drain h bytes = some (a, e') →
    e.SameButFor h e') ∧
  (∀ (e e' : OutputSide) (h : Handle) (a : SyncAnswer), e.sync h = some (a, e') → e.SameButFor h e') ∧
  (∀ (e : InputSide) (h : Handle), e.SameButFor h (e.fillPerformed h)) ∧
  ∀ (e : OutputSide) (h : Handle) (bytes : List Byte),
    e.SameButFor h (e.drainPerformed h bytes) ∧ e.SameButFor h (e.syncPerformed h)

/-- R36, R44: after a FLUSH that answers OK the writer holds nothing, and the stream has synced every byte it has accepted, the
padded pending bits among them. -/
def Obligations.FlushAnsweredOkHasSyncedEverything : Prop :=
  ∀ (s t : State) (i : Nat) (st : OutStream), s.Inv → s.outputs.stream s.writer.sid = some (i, st) →
    exec .flush s = .next t → t.trace.getLast? = some (.response ⟨.ok, 0#32, 0#64⟩) →
    ∃ st', t.outputs.stream s.writer.sid = some (i, st') ∧ st'.synced = st'.accepted.length ∧
      st'.accepted = st.accepted ++ drainedBytes (newEvents s t) ∧
      (s.writer.bits <+: bitsOfBytes (drainedBytes (newEvents s t))) ∧ t.writer.cnt = 0

/-! ## Sequences of commands -/

/-- R68: as long as no read has failed, the reads of a sequence have returned, in order, the bits the reader held followed by the
bits its Fills delivered, and the accumulator holds the next ones. -/
def Obligations.ReadsReturnTheStreamInOrder : Prop :=
  ∀ (is : List Instr) (s t : State), s.Inv → Runs is s t → (∀ h, Instr.rbind h ∉ is) → t.reader.err = .none →
    returnedBits is (responsesOf (newEvents s t)) ++ t.reader.bits =
      s.reader.bits ++ bitsOfBytes (deliveredBytes (newEvents s t))

/-- R78: from a writer that holds nothing, as long as no command has failed, the bytes of all Drains are the packing of the first
bits written, the paddings of the FLUSHes among them, and the accumulator holds the last ones. -/
def Obligations.WritesProduceThePackedBits : Prop :=
  ∀ (is : List Instr) (s t : State), s.Inv → s.writer.cnt = 0 → Runs is s t → (∀ h, Instr.wbind h ∉ is) →
    t.writer.err = .none →
    bitsOfBytes (drainedBytes (newEvents s t)) ++ t.writer.bits = writtenBits is []

/-- The round trip of R78: writing any chunks to an empty reference output stream and flushing succeeds, and reading the bytes that
stream has accepted from a reference input stream, in any chunks of the same total, succeeds and returns the bits written. -/
def Obligations.RoundTripReturnsTheBitsWritten : Prop :=
  ∀ (writes : List (Word × Nat)) (reads : List Nat) (s : State),
    (∀ p ∈ writes, p.2 ≤ 64) → (∀ n ∈ reads, n ≤ 64) → reads.sum = (writes.map Prod.snd).sum →
    s.Inv → s.writer.cnt = 0 → s.writer.err = .none → s.outputs.RefersTo s.writer.sid [] →
    ∃ (t : State) (bytes : List Byte),
      Runs ((writes.map fun p : Word × Nat => Instr.wr p.1 (p.2 : Int)) ++ [.flush]) s t ∧ t.outputs.RefersTo s.writer.sid bytes ∧
      ∀ u : State, u.Inv → u.reader.cnt = 0 → u.reader.err = .none → u.inputs.RefersTo u.reader.sid bytes →
        ∃ v : State, Runs (reads.map fun n : Nat => Instr.rd (n : Int)) u v ∧
          (∀ r ∈ responsesOf (newEvents u v), r.status = .ok) ∧
          returnedBits (reads.map fun n : Nat => Instr.rd (n : Int)) (responsesOf (newEvents u v)) =
            writes.flatMap fun p => bitsOf p.1.toNat p.2
end

