-- ==== Sys2Proof/Laws/Bits.lean ====
section
/-! SUPPORT. Bit sequences: how chunks are joined, cut and packed into bytes (20_memory.md R38, R39). Everything goes through the
single bits, so that no lemma meets a carry. -/

namespace Sys2Proof.Machine

@[simp] theorem mask_testBit (n i : Nat) : (mask n).testBit i = decide (i < n) := Nat.testBit_two_pow_sub_one n i

@[simp] theorem toWord_testBit (v i : Nat) : (toWord v).toNat.testBit i = (decide (i < 64) && v.testBit i) := by
  rw [toWord, BitVec.toNat_ofNat, Nat.testBit_mod_two_pow]

theorem testBit_eq_false_of_lt_two_pow {v n i : Nat} (h : v < 2 ^ n) (hi : n ≤ i) : v.testBit i = false :=
  Nat.testBit_lt_two_pow (h.trans_le (Nat.pow_le_pow_right (by omega) hi))

theorem and_mask_lt (v n : Nat) : v &&& mask n < 2 ^ n :=
  Nat.lt_of_le_of_lt Nat.and_le_right (Nat.sub_lt (Nat.two_pow_pos n) one_pos)

theorem toWord_toNat_of_lt {v n : Nat} (h : v < 2 ^ n) (hn : n ≤ 64) : (toWord v).toNat = v := by
  simpa [toWord] using Nat.mod_eq_of_lt (h.trans_le (Nat.pow_le_pow_right (by omega) hn))

theorem toWord_and_mask_lt (v n : Nat) : (toWord (v &&& mask n)).toNat < 2 ^ n :=
  Nat.lt_of_le_of_lt (by rw [toWord, BitVec.toNat_ofNat]; exact Nat.mod_le _ _) (and_mask_lt v n)

@[simp] theorem bitsOf_zero (v : Nat) : bitsOf v 0 = [] := rfl

@[simp] theorem bitsOf_length (v n : Nat) : (bitsOf v n).length = n := by
  induction n with
  | zero => rfl
  | succ n ih => simp [bitsOf, ih]

/-- Two values with the same low bits stand for the same chunk. -/
theorem bitsOf_congr {a b n : Nat} (h : ∀ i, i < n → a.testBit i = b.testBit i) : bitsOf a n = bitsOf b n := by
  induction n with
  | zero => rfl
  | succ n ih => simp [bitsOf, h n (by omega), ih fun i hi => h i (by omega)]

/-- A chunk is its top part followed by its low part. -/
theorem bitsOf_split (v m n : Nat) : bitsOf v (m + n) = bitsOf (v >>> n) m ++ bitsOf v n := by
  induction m with
  | zero => simp
  | succ m ih => simp [Nat.succ_add, bitsOf, ih, Nat.testBit_shiftRight, Nat.add_comm n m]

theorem bitsOf_zeros (n : Nat) : bitsOf 0 n = List.replicate n false := by
  induction n with
  | zero => rfl
  | succ n ih => simp [bitsOf, ih, List.replicate_succ]

/-- Appending a chunk to a chunk, as WR does (41_writer_backhaul.md R69). -/
theorem bitsOf_append (a b m n : Nat) : bitsOf ((a <<< n) ||| (b &&& mask n)) (m + n) = bitsOf a m ++ bitsOf b n := by
  rw [bitsOf_split]
  congr 1 <;> apply bitsOf_congr <;> intro i hi
  · simp [Nat.testBit_shiftRight, Nat.testBit_shiftLeft]
  · simp [Nat.testBit_shiftLeft, hi]

@[simp] theorem bitsOfBytes_nil : bitsOfBytes [] = [] := rfl

@[simp] theorem bitsOfBytes_append (a b : List Byte) : bitsOfBytes (a ++ b) = bitsOfBytes a ++ bitsOfBytes b := by
  simp [bitsOfBytes]

@[simp] theorem bitsOfBytes_length (l : List Byte) : (bitsOfBytes l).length = 8 * l.length := by
  induction l with
  | nil => rfl
  | cons b bs ih => simp only [bitsOfBytes, List.flatMap_cons, List.length_append, bitsOf_length, List.length_cons] at *; omega

theorem fromBytesBe_lt (l : List Byte) : fromBytesBe l < 2 ^ (8 * l.length) := by
  induction l with
  | nil => simp [fromBytesBe]
  | cons b bs ih =>
    have hb : b.toNat < 2 ^ 8 := b.isLt
    have e : 2 ^ (8 * (bs.length + 1)) = 2 ^ 8 * 2 ^ (8 * bs.length) := by rw [← pow_add]; congr 1; omega
    simp only [fromBytesBe, List.length_cons, e]
    nlinarith [Nat.two_pow_pos (8 * bs.length)]

/-- The value of a list of bytes stands for the bits of the bytes (00_scope.md R9). -/
theorem bitsOf_fromBytesBe (l : List Byte) : bitsOf (fromBytesBe l) (8 * l.length) = bitsOfBytes l := by
  induction l with
  | nil => rfl
  | cons b bs ih =>
    have hlt := fromBytesBe_lt bs
    have e : fromBytesBe (b :: bs) = 2 ^ (8 * bs.length) * b.toNat + fromBytesBe bs := by
      simp [fromBytesBe, Nat.mul_comm]
    have hlen : 8 * (b :: bs).length = 8 + 8 * bs.length := by simp; omega
    have hcons : bitsOfBytes (b :: bs) = bitsOf b.toNat 8 ++ bitsOfBytes bs := rfl
    rw [hlen, bitsOf_split, hcons, ← ih, e]
    congr 1 <;> apply bitsOf_congr <;> intro i hi
    · rw [Nat.testBit_shiftRight, Nat.testBit_two_pow_mul_add _ hlt]
      simp
    · rw [Nat.testBit_two_pow_mul_add _ hlt]
      simp [hi]

theorem bytesBe_succ (v m : Nat) :
    bytesBe v (8 * (m + 1)) = BitVec.ofNat 8 (v >>> (8 * m)) :: bytesBe v (8 * m) := by
  have h1 : 8 * (m + 1) / 8 = m + 1 := by omega
  have h2 : 8 * m / 8 = m := by omega
  simp only [bytesBe, h1, h2, List.range_succ_eq_map, List.map_cons, List.map_map]
  congr 1
  apply List.map_congr_left
  intro j _
  simp only [Function.comp_apply, Nat.succ_eq_add_one]
  congr 2
  omega

@[simp] theorem bytesBe_length (v n : Nat) : (bytesBe v n).length = n / 8 := by simp [bytesBe]

/-- The bytes of a value carry its bits, the most significant first (00_scope.md R8). -/
theorem bitsOfBytes_bytesBe (v m : Nat) : bitsOfBytes (bytesBe v (8 * m)) = bitsOf v (8 * m) := by
  induction m with
  | zero => rfl
  | succ m ih =>
    have h : 8 * (m + 1) = 8 + 8 * m := by omega
    rw [bytesBe_succ]
    have hc (b : Byte) (bs : List Byte) : bitsOfBytes (b :: bs) = bitsOf b.toNat 8 ++ bitsOfBytes bs := rfl
    rw [hc, ih, h, bitsOf_split]
    congr 1
    apply bitsOf_congr
    intro i hi
    rw [BitVec.toNat_ofNat, Nat.testBit_mod_two_pow]
    simp [hi]

/-- A byte list is determined by its bits. -/
theorem bitsOfBytes_injective {a b : List Byte} (h : bitsOfBytes a = bitsOfBytes b) : a = b := by
  induction a generalizing b with
  | nil =>
    have := congrArg List.length h
    simp only [bitsOfBytes_length] at this
    cases b with
    | nil => rfl
    | cons _ _ => simp at this
  | cons x xs ih =>
    cases b with
    | nil => have := congrArg List.length h; simp at this
    | cons y ys =>
      have h' : bitsOf x.toNat 8 ++ bitsOfBytes xs = bitsOf y.toNat 8 ++ bitsOfBytes ys := h
      obtain ⟨h1, h2⟩ := List.append_inj h' (by simp)
      rw [ih h2]
      congr 1
      simp only [bitsOf, List.cons.injEq, and_true] at h1
      apply BitVec.eq_of_toNat_eq
      apply Nat.eq_of_testBit_eq
      intro i
      obtain ⟨h7, h6, h5, h4, h3, h2, h1, h0⟩ := h1
      by_cases hi : i < 8
      · interval_cases i <;> assumption
      · rw [testBit_eq_false_of_lt_two_pow x.isLt (by omega), testBit_eq_false_of_lt_two_pow y.isLt (by omega)]

end Sys2Proof.Machine
end

