-- ==== Sys2Proof/Laws/State.lean ====
section
/-! SUPPORT. One lemma for each field of each update of the state. -/

namespace Sys2Proof.Machine

@[simp] theorem State.record_reader (s : State) (e : Event) : (s.record e).reader = s.reader := rfl
@[simp] theorem State.record_writer (s : State) (e : Event) : (s.record e).writer = s.writer := rfl
@[simp] theorem State.record_port (s : State) (e : Event) : (s.record e).port = s.port := rfl
@[simp] theorem State.record_inputs (s : State) (e : Event) : (s.record e).inputs = s.inputs := rfl
@[simp] theorem State.record_outputs (s : State) (e : Event) : (s.record e).outputs = s.outputs := rfl
@[simp] theorem State.record_trace (s : State) (e : Event) : (s.record e).trace = s.trace ++ [e] := rfl

@[simp] theorem State.respond_reader (s : State) (r : Response) : (s.respond r).reader = s.reader := rfl
@[simp] theorem State.respond_writer (s : State) (r : Response) : (s.respond r).writer = s.writer := rfl
@[simp] theorem State.respond_port (s : State) (r : Response) : (s.respond r).port = s.port := rfl
@[simp] theorem State.respond_inputs (s : State) (r : Response) : (s.respond r).inputs = s.inputs := rfl
@[simp] theorem State.respond_outputs (s : State) (r : Response) : (s.respond r).outputs = s.outputs := rfl
@[simp] theorem State.respond_trace (s : State) (r : Response) : (s.respond r).trace = s.trace ++ [.response r] := rfl

@[simp] theorem Channel.latch_buf (c : Channel) (e : Latch) : (c.latch e).buf = 0#64 := rfl
@[simp] theorem Channel.latch_cnt (c : Channel) (e : Latch) : (c.latch e).cnt = 0 := rfl
@[simp] theorem Channel.latch_err (c : Channel) (e : Latch) : (c.latch e).err = e := rfl
@[simp] theorem Channel.latch_sid (c : Channel) (e : Latch) : (c.latch e).sid = c.sid := rfl

@[simp] theorem Channel.rebind_buf (c : Channel) (h : Handle) : (c.rebind h).buf = 0#64 := rfl
@[simp] theorem Channel.rebind_cnt (c : Channel) (h : Handle) : (c.rebind h).cnt = 0 := rfl
@[simp] theorem Channel.rebind_err (c : Channel) (h : Handle) : (c.rebind h).err = .none := rfl
@[simp] theorem Channel.rebind_sid (c : Channel) (h : Handle) : (c.rebind h).sid = h := rfl

@[simp] theorem State.failReader_reader (s : State) (e : Latch) : (s.failReader e).reader = s.reader.latch e := rfl
@[simp] theorem State.failReader_writer (s : State) (e : Latch) : (s.failReader e).writer = s.writer := rfl
@[simp] theorem State.failReader_port (s : State) (e : Latch) : (s.failReader e).port = s.port := rfl
@[simp] theorem State.failReader_inputs (s : State) (e : Latch) : (s.failReader e).inputs = s.inputs := rfl
@[simp] theorem State.failReader_outputs (s : State) (e : Latch) : (s.failReader e).outputs = s.outputs := rfl
@[simp] theorem State.failReader_trace (s : State) (e : Latch) :
    (s.failReader e).trace = s.trace ++ [.response e.response] := rfl

@[simp] theorem State.failWriter_reader (s : State) (e : Latch) : (s.failWriter e).reader = s.reader := rfl
@[simp] theorem State.failWriter_writer (s : State) (e : Latch) : (s.failWriter e).writer = s.writer.latch e := rfl
@[simp] theorem State.failWriter_port (s : State) (e : Latch) : (s.failWriter e).port = s.port := rfl
@[simp] theorem State.failWriter_inputs (s : State) (e : Latch) : (s.failWriter e).inputs = s.inputs := rfl
@[simp] theorem State.failWriter_outputs (s : State) (e : Latch) : (s.failWriter e).outputs = s.outputs := rfl
@[simp] theorem State.failWriter_trace (s : State) (e : Latch) :
    (s.failWriter e).trace = s.trace ++ [.response e.response] := rfl

@[simp] theorem State.resetUnit_reader (s : State) : s.resetUnit.reader = Channel.reset := rfl
@[simp] theorem State.resetUnit_writer (s : State) : s.resetUnit.writer = Channel.reset := rfl
@[simp] theorem State.resetUnit_port (s : State) : s.resetUnit.port = s.port := rfl
@[simp] theorem State.resetUnit_inputs (s : State) : s.resetUnit.inputs = s.inputs := rfl
@[simp] theorem State.resetUnit_outputs (s : State) : s.resetUnit.outputs = s.outputs := rfl
@[simp] theorem State.resetUnit_trace (s : State) : s.resetUnit.trace = s.trace := rfl

@[simp] theorem Channel.keepLow_buf (c : Channel) (v rem : Nat) : (c.keepLow v rem).buf = toWord (v &&& mask rem) := rfl
@[simp] theorem Channel.keepLow_cnt (c : Channel) (v rem : Nat) : (c.keepLow v rem).cnt = rem := rfl
@[simp] theorem Channel.keepLow_err (c : Channel) (v rem : Nat) : (c.keepLow v rem).err = c.err := rfl
@[simp] theorem Channel.keepLow_sid (c : Channel) (v rem : Nat) : (c.keepLow v rem).sid = c.sid := rfl

@[simp] theorem Channel.emptied_buf (c : Channel) : c.emptied.buf = 0#64 := rfl
@[simp] theorem Channel.emptied_cnt (c : Channel) : c.emptied.cnt = 0 := rfl
@[simp] theorem Channel.emptied_err (c : Channel) : c.emptied.err = c.err := rfl
@[simp] theorem Channel.emptied_sid (c : Channel) : c.emptied.sid = c.sid := rfl

@[simp] theorem wrOverflow_cnt (x : Word) (n : Nat) (c : Channel) : (wrOverflow x n c).cnt = c.cnt + n - 64 := rfl
@[simp] theorem wrOverflow_err (x : Word) (n : Nat) (c : Channel) : (wrOverflow x n c).err = c.err := rfl
@[simp] theorem wrOverflow_sid (x : Word) (n : Nat) (c : Channel) : (wrOverflow x n c).sid = c.sid := rfl
@[simp] theorem wrOverflow_buf (x : Word) (n : Nat) (c : Channel) :
    (wrOverflow x n c).buf = toWord (maskedOperand x n &&& mask (c.cnt + n - 64)) := rfl

@[simp] theorem Latch.none_isSet : Latch.none.isSet = false := rfl
@[simp] theorem Latch.unexpectedEoi_isSet : Latch.unexpectedEoi.isSet = true := rfl
@[simp] theorem Latch.transport_isSet (c : ErrorCode) : (Latch.transport c).isSet = true := rfl

theorem Latch.isSet_iff (e : Latch) : e.isSet = true ↔ e ≠ .none := by cases e <;> simp

theorem Latch.not_isSet_iff (e : Latch) : e.isSet = false ↔ e = .none := by cases e <;> simp

end Sys2Proof.Machine
end

