-- ==== Sys2Proof/Laws/Streams.lean ====
section
/-! SUPPORT. What a stream transaction can do, once for each: the answer comes from the environment's side, and nothing but that
side and the trace changes (20_memory.md R31, R34, R36). -/

namespace Sys2Proof.Machine

theorem State.fill_eq_some_iff {s s' : State} {a : FillAnswer} :
    s.fill = some (a, s') ↔ ∃ e, s.inputs.fill s.reader.sid = some (a, e) ∧
      s' = { s with inputs := e }.record (.fill s.reader.sid a) := by
  unfold State.fill
  cases h : s.inputs.fill s.reader.sid with
  | none => simp
  | some r =>
    obtain ⟨b, e⟩ := r
    simp only [Option.map_some, Option.some.injEq, Prod.mk.injEq]
    constructor
    · rintro ⟨rfl, rfl⟩
      exact ⟨e, ⟨rfl, rfl⟩, rfl⟩
    · rintro ⟨_, ⟨rfl, rfl⟩, rfl⟩
      exact ⟨rfl, rfl⟩

theorem State.fill_eq_none_iff {s : State} : s.fill = none ↔ s.inputs.fill s.reader.sid = none := by
  simp [State.fill]

theorem State.drain_eq_some_iff {s s' : State} {bytes : List Byte} {a : DrainAnswer} :
    s.drain bytes = some (a, s') ↔ ∃ e, s.outputs.drain s.writer.sid bytes = some (a, e) ∧
      s' = { s with outputs := e }.record (.drain s.writer.sid bytes a) := by
  unfold State.drain
  cases h : s.outputs.drain s.writer.sid bytes with
  | none => simp
  | some r =>
    obtain ⟨b, e⟩ := r
    simp only [Option.map_some, Option.some.injEq, Prod.mk.injEq]
    constructor
    · rintro ⟨rfl, rfl⟩
      exact ⟨e, ⟨rfl, rfl⟩, rfl⟩
    · rintro ⟨_, ⟨rfl, rfl⟩, rfl⟩
      exact ⟨rfl, rfl⟩

theorem State.drain_eq_none_iff {s : State} {bytes : List Byte} :
    s.drain bytes = none ↔ s.outputs.drain s.writer.sid bytes = none := by
  simp [State.drain]

theorem State.sync_eq_some_iff {s s' : State} {a : SyncAnswer} :
    s.sync = some (a, s') ↔ ∃ e, s.outputs.sync s.writer.sid = some (a, e) ∧
      s' = { s with outputs := e }.record (.sync s.writer.sid a) := by
  unfold State.sync
  cases h : s.outputs.sync s.writer.sid with
  | none => simp
  | some r =>
    obtain ⟨b, e⟩ := r
    simp only [Option.map_some, Option.some.injEq, Prod.mk.injEq]
    constructor
    · rintro ⟨rfl, rfl⟩
      exact ⟨e, ⟨rfl, rfl⟩, rfl⟩
    · rintro ⟨_, ⟨rfl, rfl⟩, rfl⟩
      exact ⟨rfl, rfl⟩

theorem State.sync_eq_none_iff {s : State} : s.sync = none ↔ s.outputs.sync s.writer.sid = none := by
  simp [State.sync]

/-- After a transaction on it, a handle still names the same place, which holds the new stream. -/
theorem InputSide.stream_set {e : InputSide} {h : Handle} {i : Nat} {st st' : InStream} (hs : e.stream h = some (i, st)) :
    InputSide.stream { e with streams := e.streams.set i st' } h = some (i, st') := by
  unfold InputSide.stream at *
  cases hl : e.handles.lookup h with
  | none => simp [hl] at hs
  | some j =>
    simp only [hl, Option.map_eq_some_iff, Prod.mk.injEq] at hs
    obtain ⟨x, hx, rfl, rfl⟩ := hs
    have := (List.getElem?_eq_some_iff.mp hx).1
    simp [this]

theorem OutputSide.stream_set {e : OutputSide} {h : Handle} {i : Nat} {st st' : OutStream}
    (hs : e.stream h = some (i, st)) :
    OutputSide.stream { e with streams := e.streams.set i st' } h = some (i, st') := by
  unfold OutputSide.stream at *
  cases hl : e.handles.lookup h with
  | none => simp [hl] at hs
  | some j =>
    simp only [hl, Option.map_eq_some_iff, Prod.mk.injEq] at hs
    obtain ⟨x, hx, rfl, rfl⟩ := hs
    have := (List.getElem?_eq_some_iff.mp hx).1
    simp [this]

/-- A Fill of a handle that names a known stream is that stream's Fill. -/
theorem InputSide.fill_of_stream {e : InputSide} {h : Handle} {i : Nat} {st : InStream} (hs : e.stream h = some (i, st)) :
    e.fill h = st.fill.map fun r => (r.1, { e with streams := e.streams.set i r.2 }) := by
  simp [InputSide.fill, hs]

theorem OutputSide.drain_of_stream {e : OutputSide} {h : Handle} {i : Nat} {st : OutStream} (bytes : List Byte)
    (hs : e.stream h = some (i, st)) :
    e.drain h bytes = (st.drain bytes).map fun r => (r.1, { e with streams := e.streams.set i r.2 }) := by
  simp [OutputSide.drain, hs]

theorem OutputSide.sync_of_stream {e : OutputSide} {h : Handle} {i : Nat} {st : OutStream} (hs : e.stream h = some (i, st)) :
    e.sync h = st.sync.map fun r => (r.1, { e with streams := e.streams.set i r.2 }) := by
  simp [OutputSide.sync, hs]

/-- A cut transaction that was performed acts on the stream its handle names. -/
theorem InputSide.fillPerformed_of_stream {e : InputSide} {h : Handle} {i : Nat} {st : InStream}
    (hs : e.stream h = some (i, st)) :
    e.fillPerformed h = { e with streams := e.streams.set i st.fillPerformed } := by
  simp [InputSide.fillPerformed, hs]

theorem OutputSide.drainPerformed_of_stream {e : OutputSide} {h : Handle} {i : Nat} {st : OutStream} (bytes : List Byte)
    (hs : e.stream h = some (i, st)) :
    e.drainPerformed h bytes =
      { e with streams := e.streams.set i { st with accepted := st.accepted ++ bytes, drains := st.drains.tail } } := by
  simp [OutputSide.drainPerformed, hs]

theorem OutputSide.syncPerformed_of_stream {e : OutputSide} {h : Handle} {i : Nat} {st : OutStream}
    (hs : e.stream h = some (i, st)) :
    e.syncPerformed h =
      { e with streams := e.streams.set i { st with synced := st.accepted.length, syncs := st.syncs.tail } } := by
  simp [OutputSide.syncPerformed, hs]

/-- A performed Fill uses up one script entry, silence included, or moves the reference data on by at most eight bytes. -/
theorem InStream.fillPerformed_cases (st : InStream) :
    (∃ x rest, st.script = x :: rest ∧ st.fillPerformed = { st with script := rest }) ∨
    (st.script = [] ∧ st.pos < st.data.length ∧
      st.fillPerformed = { st with pos := st.pos + ((st.data.drop st.pos).take 8).length }) ∨
    (st.script = [] ∧ st.data.length ≤ st.pos ∧ st.fillPerformed = st) := by
  rcases st with ⟨_ | ⟨_ | a, rest⟩, data, pos, ending⟩
  · by_cases hp : pos < data.length
    · exact .inr (.inl ⟨rfl, hp, by simp [InStream.fillPerformed, InStream.fill, hp, deliver, Config.fillBytes]⟩)
    · exact .inr (.inr ⟨rfl, by simpa using hp, by simp [InStream.fillPerformed, InStream.fill, hp]⟩)
  · exact .inl ⟨_, rest, rfl, rfl⟩
  · exact .inl ⟨_, rest, rfl, rfl⟩

/-- A change of one place leaves what a handle of another place names. -/
theorem InputSide.stream_set_of_ne {e : InputSide} {h' : Handle} {i : Nat} {st' : InStream}
    (hne : ∀ st, e.stream h' ≠ some (i, st)) :
    InputSide.stream { e with streams := e.streams.set i st' } h' = e.stream h' := by
  unfold InputSide.stream at *
  cases hl : e.handles.lookup h' with
  | none => rfl
  | some j =>
    simp only [hl] at hne ⊢
    by_cases hji : j = i
    · subst hji
      cases hj : e.streams[j]? with
      | none => simp [List.getElem?_eq_none_iff.mp hj]
      | some x => simp [hj] at hne
    · simp [Ne.symm hji]

theorem OutputSide.stream_set_of_ne {e : OutputSide} {h' : Handle} {i : Nat} {st' : OutStream}
    (hne : ∀ st, e.stream h' ≠ some (i, st)) :
    OutputSide.stream { e with streams := e.streams.set i st' } h' = e.stream h' := by
  unfold OutputSide.stream at *
  cases hl : e.handles.lookup h' with
  | none => rfl
  | some j =>
    simp only [hl] at hne ⊢
    by_cases hji : j = i
    · subst hji
      cases hj : e.streams[j]? with
      | none => simp [List.getElem?_eq_none_iff.mp hj]
      | some x => simp [hj] at hne
    · simp [Ne.symm hji]

end Sys2Proof.Machine
end

