-- ==== Sys2Proof/Laws/Exec.lean ====
section
/-! SUPPORT. What each command can do, once for each: if it answers a next state, then one of the listed cases holds. -/

namespace Sys2Proof.Machine

theorem countLegal_iff {n : Int} : countLegal n = true ↔ 0 ≤ n ∧ n ≤ 64 := decide_eq_true_iff

theorem countLegal_eq_false_iff {n : Int} : countLegal n = false ↔ n < 0 ∨ 64 < n := by
  rw [← Bool.not_eq_true, countLegal_iff]; omega

/-- RD: refused for its count, or for the latch, or the fast path, or the slow path with an answered Fill. -/
theorem execRd_cases {n : Int} {s t : State} (h : execRd n s = .next t) :
    (countLegal n = false ∧ t = s.respond .invalidCount) ∨
    (countLegal n = true ∧ s.reader.err ≠ .none ∧ t = s.respond s.reader.err.response) ∨
    (countLegal n = true ∧ s.reader.err = .none ∧ n.toNat ≤ s.reader.cnt ∧ t = rdFast n.toNat s) ∨
    (countLegal n = true ∧ s.reader.err = .none ∧ s.reader.cnt < n.toNat ∧
      ∃ a e, s.inputs.fill s.reader.sid = some (a, e) ∧
        t = rdAnswered n.toNat a ({ s with inputs := e }.record (.fill s.reader.sid a))) := by
  unfold execRd at h
  split at h
  · exact .inl ⟨‹_›, by simpa using h.symm⟩
  · rename_i hc
    simp only [Bool.not_eq_false] at hc
    split at h
    · rename_i he
      exact .inr (.inl ⟨hc, (Latch.isSet_iff _).mp he, by simpa using h.symm⟩)
    · rename_i he
      have he' := (Latch.not_isSet_iff _).mp (Bool.not_eq_true _ ▸ he)
      split at h
      · exact .inr (.inr (.inl ⟨hc, he', ‹_›, by simpa using h.symm⟩))
      · split at h
        · cases h
        · rename_i hn _ a s' hf
          obtain ⟨e, hfe, rfl⟩ := State.fill_eq_some_iff.mp hf
          exact .inr (.inr (.inr ⟨hc, he', by omega, a, e, hfe, by simpa using h.symm⟩))

/-- The slow path of RD from its Fill on: TRANSPORT, UNEXPECTED_EOI, or the refill. -/
theorem rdAnswered_cases (n : Nat) (a : FillAnswer) (s : State) :
    (∃ c, a.term = .err c ∧ rdAnswered n a s = s.failReader (.transport c)) ∨
    ((∀ c, a.term ≠ .err c) ∧ 8 * a.delivery.bytes.length < n - s.reader.cnt ∧
      rdAnswered n a s = s.failReader .unexpectedEoi) ∨
    ((∀ c, a.term ≠ .err c) ∧ n - s.reader.cnt ≤ 8 * a.delivery.bytes.length ∧
      rdAnswered n a s = rdRefill n a.delivery.bytes s) := by
  unfold rdAnswered
  cases ht : a.term with
  | err c => exact .inl ⟨c, rfl, rfl⟩
  | ok =>
    by_cases hk : 8 * a.delivery.bytes.length < n - s.reader.cnt
    · exact .inr (.inl ⟨by simp, hk, by simp [hk]⟩)
    · exact .inr (.inr ⟨by simp, by omega, by simp [hk]⟩)
  | eof =>
    by_cases hk : 8 * a.delivery.bytes.length < n - s.reader.cnt
    · exact .inr (.inl ⟨by simp, hk, by simp [hk]⟩)
    · exact .inr (.inr ⟨by simp, by omega, by simp [hk]⟩)

/-- WR: refused for its count, or for the latch, or the append, or the emission with an answered Drain. -/
theorem execWr_cases {x : Word} {n : Int} {s t : State} (h : execWr x n s = .next t) :
    (countLegal n = false ∧ t = s.respond .invalidCount) ∨
    (countLegal n = true ∧ s.writer.err ≠ .none ∧ t = s.respond s.writer.err.response) ∨
    (countLegal n = true ∧ s.writer.err = .none ∧ s.writer.cnt + n.toNat < 64 ∧ t = wrAppend x n.toNat s) ∨
    (countLegal n = true ∧ s.writer.err = .none ∧ 64 ≤ s.writer.cnt + n.toNat ∧
      ∃ a e, s.outputs.drain s.writer.sid (wrEmitted x n.toNat s.writer) = some (a, e) ∧
        t = wrAnswered a ({ s with writer := wrOverflow x n.toNat s.writer, outputs := e }.record
          (.drain s.writer.sid (wrEmitted x n.toNat s.writer) a))) := by
  unfold execWr at h
  split at h
  · exact .inl ⟨‹_›, by simpa using h.symm⟩
  · rename_i hc
    simp only [Bool.not_eq_false] at hc
    split at h
    · rename_i he
      exact .inr (.inl ⟨hc, (Latch.isSet_iff _).mp he, by simpa using h.symm⟩)
    · rename_i he
      have he' := (Latch.not_isSet_iff _).mp (Bool.not_eq_true _ ▸ he)
      split at h
      · exact .inr (.inr (.inl ⟨hc, he', ‹_›, by simpa using h.symm⟩))
      · split at h
        · cases h
        · rename_i hn _ a s' hf
          obtain ⟨e, hfe, rfl⟩ := State.drain_eq_some_iff.mp hf
          exact .inr (.inr (.inr ⟨hc, he', by omega, a, e, hfe, by simpa using h.symm⟩))

/-- The Sync that ends a FLUSH, when it is answered. -/
theorem flushSync_cases {s t : State} (h : flushSync s = .next t) :
    ∃ a e, s.outputs.sync s.writer.sid = some (a, e) ∧
      t = flushSynced a ({ s with outputs := e }.record (.sync s.writer.sid a)) := by
  unfold flushSync at h
  split at h
  · cases h
  · rename_i a s' hf
    obtain ⟨e, hfe, rfl⟩ := State.sync_eq_some_iff.mp hf
    exact ⟨a, e, hfe, by simpa using h.symm⟩

theorem padding_lt (n : Nat) : padding n < 8 := by unfold padding; omega

theorem padding_spec (n : Nat) : (n + padding n) % 8 = 0 := by unfold padding; omega

theorem add_padding_eq_zero_iff (n : Nat) : n + padding n = 0 ↔ n = 0 := by unfold padding; omega

/-- FLUSH: refused for the latch, or the Sync alone, or a failed Drain, or a Drain and a Sync. -/
theorem execFlush_cases {s t : State} (h : execFlush s = .next t) :
    (s.writer.err ≠ .none ∧ t = s.respond s.writer.err.response) ∨
    (s.writer.err = .none ∧ s.writer.cnt = 0 ∧ flushSync { s with writer := s.writer.emptied } = .next t) ∨
    (s.writer.err = .none ∧ s.writer.cnt ≠ 0 ∧
      ∃ a e, s.outputs.drain s.writer.sid (flushBytes s.writer) = some (a, e) ∧
        ((∃ c k, a = .err c k ∧
          t = ({ s with writer := s.writer.emptied, outputs := e }.record
            (.drain s.writer.sid (flushBytes s.writer) a)).failWriter (.transport c)) ∨
        (a = .ok ∧
          flushSync ({ s with writer := s.writer.emptied, outputs := e }.record
            (.drain s.writer.sid (flushBytes s.writer) a)) = .next t))) := by
  unfold execFlush at h
  split at h
  · rename_i he
    exact .inl ⟨(Latch.isSet_iff _).mp he, by simpa using h.symm⟩
  · rename_i he
    have he' := (Latch.not_isSet_iff _).mp (Bool.not_eq_true _ ▸ he)
    split at h
    · rename_i hz
      exact .inr (.inl ⟨he', (add_padding_eq_zero_iff _).mp hz, h⟩)
    · rename_i hz
      refine .inr (.inr ⟨he', fun h0 => hz ((add_padding_eq_zero_iff _).mpr h0), ?_⟩)
      split at h
      · cases h
      · rename_i c k s' hf
        obtain ⟨e, hfe, rfl⟩ := State.drain_eq_some_iff.mp hf
        exact ⟨_, e, hfe, .inl ⟨c, k, rfl, by simpa using h.symm⟩⟩
      · rename_i s' hf
        obtain ⟨e, hfe, rfl⟩ := State.drain_eq_some_iff.mp hf
        exact ⟨_, e, hfe, .inr ⟨rfl, h⟩⟩

/-! ## Each path of a command, from the conditions that lead into it -/

theorem execRd_fast {s : State} {n : Int} (hc : countLegal n = true) (he : s.reader.err = .none)
    (hn : n.toNat ≤ s.reader.cnt) : execRd n s = .next (rdFast n.toNat s) := by
  simp [execRd, hc, he, hn]

theorem execRd_slow {s : State} {n : Int} {a : FillAnswer} {e : InputSide} (hc : countLegal n = true)
    (he : s.reader.err = .none) (hn : s.reader.cnt < n.toNat) (hf : s.inputs.fill s.reader.sid = some (a, e)) :
    execRd n s = .next (rdAnswered n.toNat a ({ s with inputs := e }.record (.fill s.reader.sid a))) := by
  simp [execRd, hc, he, show ¬ n.toNat ≤ s.reader.cnt by omega, State.fill_eq_some_iff.mpr ⟨e, hf, rfl⟩]

theorem execWr_append {s : State} {x : Word} {n : Int} (hc : countLegal n = true) (he : s.writer.err = .none)
    (hn : s.writer.cnt + n.toNat < 64) : execWr x n s = .next (wrAppend x n.toNat s) := by
  simp [execWr, hc, he, hn]

theorem execWr_emit {s : State} {x : Word} {n : Int} {a : DrainAnswer} {e : OutputSide} (hc : countLegal n = true)
    (he : s.writer.err = .none) (hn : 64 ≤ s.writer.cnt + n.toNat)
    (hf : s.outputs.drain s.writer.sid (wrEmitted x n.toNat s.writer) = some (a, e)) :
    execWr x n s = .next (wrAnswered a ({ s with writer := wrOverflow x n.toNat s.writer, outputs := e }.record
      (.drain s.writer.sid (wrEmitted x n.toNat s.writer) a))) := by
  have hd := State.drain_eq_some_iff (s := { s with writer := wrOverflow x n.toNat s.writer }).mpr ⟨e, hf, rfl⟩
  simp only [execWr, hc, he, show ¬ s.writer.cnt + n.toNat < 64 by omega, hd]
  simp

theorem flushSync_answered {s : State} {a : SyncAnswer} {e : OutputSide}
    (hy : s.outputs.sync s.writer.sid = some (a, e)) :
    flushSync s = .next (flushSynced a ({ s with outputs := e }.record (.sync s.writer.sid a))) := by
  simp [flushSync, State.sync_eq_some_iff.mpr ⟨e, hy, rfl⟩]

theorem execFlush_empty {s : State} (he : s.writer.err = .none) (hc : s.writer.cnt = 0) :
    execFlush s = flushSync { s with writer := s.writer.emptied } := by
  simp [execFlush, he, hc, show padding 0 = 0 from rfl]

theorem execFlush_drained {s : State} {e : OutputSide} (he : s.writer.err = .none) (hc : s.writer.cnt ≠ 0)
    (hd : s.outputs.drain s.writer.sid (flushBytes s.writer) = some (.ok, e)) :
    execFlush s = flushSync ({ s with writer := s.writer.emptied, outputs := e }.record
      (.drain s.writer.sid (flushBytes s.writer) .ok)) := by
  have h := State.drain_eq_some_iff (s := { s with writer := s.writer.emptied }).mpr ⟨e, hd, rfl⟩
  simp only [execFlush, he, show ¬ s.writer.cnt + padding s.writer.cnt = 0 by omega, h]
  simp

theorem execFlush_failed {s : State} {e : OutputSide} {c : ErrorCode} {k : Nat} (he : s.writer.err = .none)
    (hc : s.writer.cnt ≠ 0) (hd : s.outputs.drain s.writer.sid (flushBytes s.writer) = some (.err c k, e)) :
    execFlush s = .next (({ s with writer := s.writer.emptied, outputs := e }.record
      (.drain s.writer.sid (flushBytes s.writer) (.err c k))).failWriter (.transport c)) := by
  have h := State.drain_eq_some_iff (s := { s with writer := s.writer.emptied }).mpr ⟨e, hd, rfl⟩
  simp only [execFlush, he, show ¬ s.writer.cnt + padding s.writer.cnt = 0 by omega, h]
  simp

/-- What one step can do: nothing, a command, an illegal word, a reset, or a command cut off by a reset. -/
theorem step_cases {s t : State} (h : step s = .next t) :
    (s.port = [] ∧ t = s) ∨
    (∃ w rest i, s.port = .command w :: rest ∧ decode w = .ok i ∧ exec i { s with port := rest } = .next t) ∨
    (∃ w rest e, s.port = .command w :: rest ∧ decode w = .error e ∧ t = State.answerIllegal { s with port := rest }) ∨
    (∃ rest, s.port = .reset :: rest ∧ t = State.hardwareReset { s with port := rest }) ∨
    (∃ w l rest, s.port = .cutByReset w l :: rest ∧ t = State.cutCommand { s with port := rest } w l) := by
  unfold step State.fetch at h
  cases hp : s.port with
  | nil => exact .inl ⟨rfl, by simpa [hp] using h.symm⟩
  | cons p rest =>
    simp only [hp] at h
    cases p with
    | command w =>
      cases hd : decode w with
      | ok i => exact .inr (.inl ⟨w, rest, i, rfl, hd, by simpa [hd] using h⟩)
      | error e => exact .inr (.inr (.inl ⟨w, rest, e, rfl, hd, by simpa [hd] using h.symm⟩))
    | reset => exact .inr (.inr (.inr (.inl ⟨rest, rfl, by simpa using h.symm⟩)))
    | cutByReset w l => exact .inr (.inr (.inr (.inr ⟨w, l, rest, rfl, by simpa using h.symm⟩)))

end Sys2Proof.Machine
end

