-- ==== Sys2Proof/Laws/Accumulator.lean ====
section
/-! SUPPORT. What each path does to the bits a channel holds: the arithmetic of 40_reader_fronthaul.md R61 and
41_writer_backhaul.md R69 and R73 as equations between bit sequences. -/

namespace Sys2Proof.Machine

theorem toWord_toNat_le (v : Nat) : (toWord v).toNat ≤ v := by
  rw [toWord, BitVec.toNat_ofNat]
  exact Nat.mod_le _ _

theorem shiftRight_lt {v n m : Nat} (h : v < 2 ^ n) : v >>> (n - m) < 2 ^ m := by
  apply Nat.lt_pow_two_of_testBit
  intro i hi
  simp [Nat.testBit_shiftRight, testBit_eq_false_of_lt_two_pow h (show n ≤ n - m + i by omega)]

/-! ## Reader -/

theorem keepLow_bits (c : Channel) (v : Nat) {n : Nat} (h : n ≤ 63) : (c.keepLow v n).bits = bitsOf v n := by
  apply bitsOf_congr
  intro i hi
  simp only [Channel.keepLow_cnt] at hi
  simp only [Channel.keepLow_buf, toWord_testBit, Nat.testBit_and, mask_testBit, hi]
  simp
  omega

/-- The fast path splits the held bits (R62). -/
theorem fastPath_bits {c : Channel} {n : Nat} (hc : c.cnt ≤ 63) (h : n ≤ c.cnt) :
    bitsOf (toWord (c.buf.toNat >>> (c.cnt - n))).toNat n ++ (c.keepLow c.buf.toNat (c.cnt - n)).bits = c.bits := by
  rw [keepLow_bits _ _ (by omega)]
  have e : c.bits = bitsOf c.buf.toNat (n + (c.cnt - n)) := by unfold Channel.bits; congr 1; omega
  rw [e, bitsOf_split]
  congr 1
  apply bitsOf_congr
  intro i hi
  simp
  omega

/-- The refill joins the held bits and the delivered ones, and splits them at the request (R63). -/
theorem refill_bits {c : Channel} {n : Nat} {l : List Byte} (hn : n ≤ 64) (h1 : c.cnt < n) (hl : l.length ≤ 8)
    (h2 : n - c.cnt ≤ 8 * l.length) :
    bitsOf (toWord ((c.buf.toNat <<< (n - c.cnt)) ||| (fromBytesBe l >>> (8 * l.length - (n - c.cnt))))).toNat n ++
      (c.keepLow (fromBytesBe l) (8 * l.length - (n - c.cnt))).bits = c.bits ++ bitsOfBytes l := by
  have hf := fromBytesBe_lt l
  rw [keepLow_bits _ _ (by omega), ← bitsOf_fromBytesBe]
  generalize fromBytesBe l = f at *
  obtain ⟨need, hneed⟩ : ∃ k, n = c.cnt + k := ⟨n - c.cnt, by omega⟩
  obtain ⟨rem, hrem⟩ : ∃ k, 8 * l.length = need + k := ⟨8 * l.length - need, by omega⟩
  rw [hneed, hrem, show c.cnt + need - c.cnt = need by omega, show need + rem - need = rem by omega, bitsOf_split,
    bitsOf_split f, ← List.append_assoc]
  congr 1
  unfold Channel.bits
  congr 1 <;> apply bitsOf_congr <;> intro i hi
  · rw [Nat.testBit_shiftRight, toWord_testBit]
    simp [Nat.testBit_shiftLeft, Nat.testBit_shiftRight, show need + i < 64 by omega,
      testBit_eq_false_of_lt_two_pow hf (show 8 * l.length ≤ rem + (need + i) by omega)]
  · rw [toWord_testBit]
    simp [Nat.testBit_shiftLeft, Nat.testBit_shiftRight, show i < 64 by omega, show ¬ need ≤ i by omega]

/-- The result of a refill has the requested width (R65). -/
theorem refill_lt {c : Channel} {n : Nat} {l : List Byte} (hc : c.buf.toNat < 2 ^ c.cnt) (h1 : c.cnt < n) :
    (toWord ((c.buf.toNat <<< (n - c.cnt)) ||| (fromBytesBe l >>> (8 * l.length - (n - c.cnt))))).toNat < 2 ^ n := by
  refine (toWord_toNat_le _).trans_lt (Nat.or_lt_two_pow ?_ ?_)
  · rw [Nat.shiftLeft_eq, show 2 ^ n = 2 ^ c.cnt * 2 ^ (n - c.cnt) by rw [← pow_add]; congr 1; omega]
    exact Nat.mul_lt_mul_of_pos_right hc (Nat.two_pow_pos _)
  · exact (shiftRight_lt (fromBytesBe_lt l)).trans_le (Nat.pow_le_pow_right (by omega) (by omega))

/-! ## Writer -/

theorem wrCombined_lt {x : Word} {n : Nat} {c : Channel} (h : c.buf.toNat < 2 ^ c.cnt) :
    wrCombined x n c < 2 ^ (c.cnt + n) := by
  unfold wrCombined maskedOperand
  apply Nat.lt_pow_two_of_testBit
  intro i hi
  simp [Nat.testBit_shiftLeft, testBit_eq_false_of_lt_two_pow h (show c.cnt ≤ i - n by omega)]
  omega

/-- The pending bits of a write: the held ones, then the low `n` bits of the operand (R69). -/
theorem wrCombined_bits (x : Word) (n : Nat) (c : Channel) :
    bitsOf (wrCombined x n c) (c.cnt + n) = c.bits ++ bitsOf x.toNat n :=
  bitsOf_append _ _ _ _

/-- The append keeps them all (R71). -/
theorem wrAppend_bits {x : Word} {n : Nat} {c : Channel} (h : c.cnt + n < 64) :
    bitsOf (toWord (wrCombined x n c)).toNat (c.cnt + n) = c.bits ++ bitsOf x.toNat n := by
  rw [← wrCombined_bits]
  apply bitsOf_congr
  intro i hi
  rw [toWord_testBit]
  simp
  omega

/-- The emitted word is the first 64 of them (R72). -/
theorem wrEmitted_bits {x : Word} {n : Nat} {c : Channel} (h : 64 ≤ c.cnt + n) :
    bitsOfBytes (wrEmitted x n c) = (c.bits ++ bitsOf x.toNat n).take 64 := by
  rw [← wrCombined_bits, wrEmitted, show (64 : Nat) = 8 * 8 from rfl, bitsOfBytes_bytesBe]
  obtain ⟨k, hk⟩ : ∃ k, c.cnt + n = 8 * 8 + k := ⟨c.cnt + n - 64, by omega⟩
  rw [hk, bitsOf_split, show 8 * 8 + k - 8 * 8 = k by omega]
  simp

/-- The overflow is the rest (R72). -/
theorem wrOverflow_bits {x : Word} {n : Nat} {c : Channel} (hc : c.cnt ≤ 63) (hn : n ≤ 64) (h : 64 ≤ c.cnt + n) :
    (wrOverflow x n c).bits = (c.bits ++ bitsOf x.toNat n).drop 64 := by
  rw [← wrCombined_bits]
  obtain ⟨k, hk⟩ : ∃ k, c.cnt + n = 64 + k := ⟨c.cnt + n - 64, by omega⟩
  rw [hk, bitsOf_split, List.drop_append_of_le_length (by simp), List.drop_eq_nil_of_le (by simp), List.nil_append]
  simp only [Channel.bits, wrOverflow_cnt, wrOverflow_buf, hk, show 64 + k - 64 = k by omega]
  apply bitsOf_congr
  intro i hi
  rw [toWord_testBit]
  simp [wrCombined, maskedOperand, Nat.testBit_shiftLeft, hi, show ¬ n ≤ i by omega, show i < 64 by omega,
    show i < n by omega]

/-- FLUSH hands over the held bits and its padding (R73, R74). -/
theorem flushBytes_bits (c : Channel) : bitsOfBytes (flushBytes c) = c.bits ++ List.replicate (padding c.cnt) false := by
  have h := padding_spec c.cnt
  obtain ⟨m, hm⟩ : ∃ m, c.cnt + padding c.cnt = 8 * m := ⟨(c.cnt + padding c.cnt) / 8, by omega⟩
  have happ := bitsOf_append c.buf.toNat 0 c.cnt (padding c.cnt)
  rw [flushBytes, hm, bitsOfBytes_bytesBe, ← hm, ← bitsOf_zeros]
  unfold Channel.bits
  simpa using happ

end Sys2Proof.Machine
end

