-- ==== Sys2Proof/Laws/Assembler.lean ====
section
/-! SUPPORT. The pieces the assembler is built from (30_encoding.md R59): numerals, blanks, commas and lines. -/

namespace Sys2Proof.Machine

/-- The digits of each base of R59 are read back. -/
theorem digit_hexDigit_two : ∀ d : Fin 2, Asm.digit 2 (hexDigit d.val) = some d.val := by decide
theorem digit_hexDigit_ten : ∀ d : Fin 10, Asm.digit 10 (hexDigit d.val) = some d.val := by decide
theorem digit_hexDigit_sixteen : ∀ d : Fin 16, Asm.digit 16 (hexDigit d.val) = some d.val := by decide

theorem digitsFrom_numeral {base : Nat} (h : ∀ d : Fin base, Asm.digit base (hexDigit d.val) = some d.val)
    (ds : List (Fin base)) :
    ∀ acc, Asm.digitsFrom base (numeral ds) acc = some (ds.foldl (fun v d => base * v + d.val) acc) := by
  induction ds with
  | nil => exact fun _ => rfl
  | cons d ds ih =>
    intro acc
    have hc : numeral (d :: ds) = hexDigit d.val :: numeral ds := rfl
    rw [hc]
    simp only [Asm.digitsFrom, h d, ih, List.foldl_cons, mul_comm]

/-- A numeral with at least one digit is read as the number it stands for. -/
theorem digits_numeral {base : Nat} (h : ∀ d : Fin base, Asm.digit base (hexDigit d.val) = some d.val)
    (ds : List (Fin base)) (hd : ds ≠ []) : Asm.digits base (numeral ds) = some (numeralValue ds) := by
  rw [Asm.digits, if_neg (by simpa [numeral] using hd), digitsFrom_numeral h, numeralValue]

theorem dropWhile_blank_eq_self {l : List Char} {a : Char} (h : l.head? = some a) (ha : Asm.isBlank a = false) :
    l.dropWhile Asm.isBlank = l := by
  cases l with
  | nil => rfl
  | cons b l =>
    obtain rfl : b = a := by simpa using h
    simp [ha]

/-- A text with no blank at either end is its own trimming. -/
theorem trim_eq_self {l : List Char} {a b : Char} (h : l.head? = some a) (ha : Asm.isBlank a = false)
    (h' : l.getLast? = some b) (hb : Asm.isBlank b = false) : Asm.trim l = l := by
  rw [Asm.trim, dropWhile_blank_eq_self h ha, dropWhile_blank_eq_self (by simpa using h') hb, List.reverse_reverse]

theorem splitCommas_eq_singleton {l : List Char} (h : ∀ c ∈ l, c ≠ ',') : Asm.splitCommas l = [l] := by
  induction l with
  | nil => rfl
  | cons a l ih =>
    simp only [Asm.splitCommas, ih fun c hc => h c (by simp [hc])]
    simp [h a (by simp)]

theorem splitCommas_append_comma {l r : List Char} (h : ∀ c ∈ l, c ≠ ',') :
    Asm.splitCommas (l ++ ',' :: r) = l :: Asm.splitCommas r := by
  induction l with
  | nil => simp [Asm.splitCommas]
  | cons a l ih =>
    simp only [List.cons_append, Asm.splitCommas, ih fun c hc => h c (by simp [hc])]
    simp [h a (by simp)]

/-- A line without a comment and without blanks at its ends is its command. -/
theorem parseLine_eq_commandOf {line : List Char} {a b : Char} (h : line.head? = some a) (ha : Asm.isBlank a = false)
    (h' : line.getLast? = some b) (hb : Asm.isBlank b = false) (hs : ∀ c ∈ line, c ≠ ';') :
    parseLine line = (Asm.commandOf line).map some := by
  have ht : line.takeWhile (fun c => c != ';') = line := by
    rw [List.takeWhile_eq_self_iff]
    simpa using hs
  unfold parseLine
  simp only [ht, trim_eq_self h ha h' hb]
  rw [if_neg (by rintro rfl; simp at h)]

end Sys2Proof.Machine
end

