-- ==== Sys2Proof/Laws/Decode.lean ====
section
/-! SUPPORT. The fields of a command word that was put together from its fields (30_encoding.md R49), and the count field (R53). -/

namespace Sys2Proof

theorem op_packCommand (op : BitVec 4) (c : BitVec 8) (v : Word) : CmdWord.op (packCommand op c v) = op := by
  apply BitVec.eq_of_getLsbD_eq
  intro i hi
  have e : 76 + i - 64 - 8 - 4 = i := by omega
  simp only [CmdWord.op, packCommand, BitVec.getLsbD_extractLsb', BitVec.getLsbD_append]
  simp [hi, e, show ¬ 76 + i < 64 by omega, show ¬ 76 + i - 64 < 8 by omega, show ¬ 76 + i - 64 - 8 < 4 by omega]

theorem rsv_packCommand (op : BitVec 4) (c : BitVec 8) (v : Word) : CmdWord.rsv (packCommand op c v) = 0#4 := by
  apply BitVec.eq_of_getLsbD_eq
  intro i hi
  have e : 72 + i - 64 - 8 = i := by omega
  simp only [CmdWord.rsv, packCommand, BitVec.getLsbD_extractLsb', BitVec.getLsbD_append]
  simp [hi, e, show ¬ 72 + i < 64 by omega, show ¬ 72 + i - 64 < 8 by omega]

theorem count_packCommand (op : BitVec 4) (c : BitVec 8) (v : Word) : CmdWord.count (packCommand op c v) = c := by
  apply BitVec.eq_of_getLsbD_eq
  intro i hi
  simp only [CmdWord.count, packCommand, BitVec.getLsbD_extractLsb', BitVec.getLsbD_append]
  simp [hi]

theorem value_packCommand (op : BitVec 4) (c : BitVec 8) (v : Word) : CmdWord.value (packCommand op c v) = v := by
  apply BitVec.eq_of_getLsbD_eq
  intro i hi
  simp only [CmdWord.value, packCommand, BitVec.getLsbD_extractLsb', BitVec.getLsbD_append]
  simp [hi]

/-- `sint8` of 00_scope.md R10 is the two's complement reading. -/
theorem sint8_eq_toInt (c : BitVec 8) : sint8 c = c.toInt := by
  have := c.isLt
  rw [sint8, BitVec.toInt_eq_toNat_cond]
  split <;> split <;> omega

/-- A count that has a field is read back from it (R53, R59). -/
theorem sint8_countField {n : Int} (h : countFits n = true) : sint8 (countField n) = n := by
  simp only [countFits, decide_eq_true_eq] at h
  rw [sint8_eq_toInt, countField, BitVec.toInt_ofInt, Int.bmod_def]
  split <;> omega

end Sys2Proof
end

