-- ==== Sys2Proof/Laws/PerInstr.lean ====
section
/-! SUPPORT. Statements made instruction by instruction: the canonical word of each instruction has the `match` of its row of
spec/opcode_table.json under the row's `mask` (30_encoding.md R52). -/

namespace Sys2Proof.Laws.EncodeMatchesTable

/-- The opcode of an instruction's row (R52). -/
def opcode : Instr → Nat
  | .rd _ => 1
  | .wr _ _ => 2
  | .flush => 3
  | .rbind _ => 4
  | .wbind _ => 5
  | .rpoll => 6
  | .wpoll => 7

/-- `word & mask = match`: bits 79:72 of the word are the opcode followed by `0b0000`. -/
def Statement (i : Instr) : Prop := (encode i).extractLsb' 72 8 = BitVec.ofNat 8 (opcode i * 16)

theorem packCommand_selector (op : BitVec 4) (c : BitVec 8) (v : Word) :
    (packCommand op c v).extractLsb' 72 8 = op ++ 0#4 := by
  apply BitVec.eq_of_getLsbD_eq
  intro i hi
  simp only [packCommand, BitVec.getLsbD_extractLsb', BitVec.getLsbD_append]
  have e : 72 + i - 64 - 8 = i := by omega
  simp [hi, show ¬ 72 + i < 64 by omega, show ¬ 72 + i - 64 < 8 by omega, e]

theorem opcode_appended : ∀ k : Fin 8, BitVec.ofNat 4 k.val ++ 0#4 = BitVec.ofNat 8 (k.val * 16) := by decide

theorem rd (n : Int) : Statement (.rd n) := (packCommand_selector _ _ _).trans (opcode_appended 1)
theorem wr (x : Word) (n : Int) : Statement (.wr x n) := (packCommand_selector _ _ _).trans (opcode_appended 2)
theorem flush : Statement .flush := (packCommand_selector _ _ _).trans (opcode_appended 3)
theorem rbind (h : Handle) : Statement (.rbind h) := (packCommand_selector _ _ _).trans (opcode_appended 4)
theorem wbind (h : Handle) : Statement (.wbind h) := (packCommand_selector _ _ _).trans (opcode_appended 5)
theorem rpoll : Statement .rpoll := (packCommand_selector _ _ _).trans (opcode_appended 6)
theorem wpoll : Statement .wpoll := (packCommand_selector _ _ _).trans (opcode_appended 7)

end Sys2Proof.Laws.EncodeMatchesTable
end

