-- ==== Sys2Proof/Tests/Slice0.lean ====
section
/-! SUPPORT. Tests. The expected results come from spec/95_test_vectors.md (each test names its vector) or are written out by hand from
the encoding of 30_encoding.md R49 and R52. The last part has a concrete state and operands for the hypotheses of each statement. -/

namespace Sys2Proof.Tests

open Sys2Proof Sys2Proof.Machine

/-! ## Well-formedness -/

theorem test_rd_count_above_the_field_is_refused : (Instr.rd 128).wellFormed = false := by decide
theorem test_rd_count_below_the_field_is_refused : (Instr.rd (-129)).wellFormed = false := by decide
theorem test_wr_count_above_the_field_is_refused : (Instr.wr 0#64 128).wellFormed = false := by decide
theorem test_wr_count_below_the_field_is_refused : (Instr.wr 0#64 (-129)).wellFormed = false := by decide
theorem test_counts_at_the_ends_are_accepted :
    (Instr.rd 127).wellFormed = true ∧ (Instr.wr 0#64 (-128)).wellFormed = true := by decide

/-! ## Decoding: op, rsv, count, value written out from R49 -/

theorem test_decode_rd : decode (0b0001#4 ++ 0b0000#4 ++ 0b00000011#8 ++ 0xDEADBEEF00000001#64) = .ok (.rd 3) := by decide
theorem test_decode_rd_negative : decode (0b0001#4 ++ 0b0000#4 ++ 0b10000000#8 ++ 0#64) = .ok (.rd (-128)) := by decide
theorem test_decode_wr : decode (0b0010#4 ++ 0b0000#4 ++ 0b01000000#8 ++ 0xFFFFFFFFFFFFFFFF#64) =
    .ok (.wr 0xFFFFFFFFFFFFFFFF#64 64) := by decide
theorem test_decode_flush : decode (0b0011#4 ++ 0b0000#4 ++ 0b11111111#8 ++ 0x123456789ABCDEF0#64) = .ok .flush := by decide
theorem test_decode_rbind : decode (0b0100#4 ++ 0b0000#4 ++ 0b01000001#8 ++ 42#64) = .ok (.rbind 42#64) := by decide
theorem test_decode_wbind : decode (0b0101#4 ++ 0b0000#4 ++ 0b00000000#8 ++ 0x8000000000000001#64) =
    .ok (.wbind 0x8000000000000001#64) := by decide
theorem test_decode_rpoll : decode (0b0110#4 ++ 0b0000#4 ++ 0#8 ++ 0#64) = .ok .rpoll := by decide
theorem test_decode_wpoll : decode (0b0111#4 ++ 0b0000#4 ++ 0#8 ++ 0#64) = .ok .wpoll := by decide
/-- Section 6 of the vectors: op 0x0, 0x8 and 0xF. -/
theorem test_decode_undefined_opcodes :
    decode 0x00000000000000000000#80 = .error .undefinedOpcode ∧
    decode 0x80000000000000000000#80 = .error .undefinedOpcode ∧
    decode 0xF0000000000000000000#80 = .error .undefinedOpcode := by decide
/-- Section 6 of the vectors: rsv 0x1, 0x8 and 0xF. -/
theorem test_decode_reserved_field :
    decode 0x11030000000000000000#80 = .error .reservedField ∧
    decode 0x28410000000000000000#80 = .error .reservedField ∧
    decode 0x6F000000000000000000#80 = .error .reservedField := by decide

/-- The words of P4 of the vectors. -/
theorem test_encode_wr_and_flush :
    encode (.wr 0x7FFFFFFFFFFFFFFF#64 63) = 0x203F7FFFFFFFFFFFFFFF#80 ∧
    encode .flush = 0x30000000000000000000#80 := by decide
/-- The words of P3 of the vectors. -/
theorem test_encode_rd_rbind_and_rpoll :
    encode (.rd (-1)) = 0x10FF0000000000000000#80 ∧ encode (.rbind 2#64) = 0x40000000000000000002#80 ∧
    encode .rpoll = 0x60000000000000000000#80 := by decide

/-- R50, R51: TRANSPORT is 3; the code is bits 95:64. -/
theorem test_response_word : (Response.mk .transport 0x1D#32 0#64).word = 0x30000001D0000000000000000#99 := by decide

/-! ## The assembler of R59 and R60 -/

theorem test_assemble_comment_and_hex :
    parseLine "  WR 0x13, 12 ; twelve bits".toList = .ok (some (.wr 0x13#64 12)) := by decide
theorem test_assemble_call : parseLine "read(8)".toList = .ok (some (.rd 8)) := by decide
theorem test_assemble_empty_line : parseLine " ; nothing".toList = .ok none := by decide
theorem test_assemble_refuses_wide_count : parseLine "RD 128".toList = .error .countOutOfRange := by decide

/-! ## Small states -/

/-- An unlatched channel on handle 0 that holds `n` bits of value `v`. -/
def holding (v n : Nat) : Channel := ⟨BitVec.ofNat 64 v, n, .none, 0#64⟩

/-- A latched channel on handle 0. -/
def latched (e : Latch) : Channel := ⟨0#64, 0, e, 0#64⟩

/-- A reader whose input stream 0 has a script and, after it, data. -/
def readerOn (c : Channel) (script : List (Option FillAnswer)) (data : List Byte) : State :=
  { State.reset with reader := c, inputs := ⟨[(0#64, 0)], [⟨script, data, 0, .eof⟩], 0⟩ }

/-- A writer whose output stream 0 has scripts and no accepted byte. -/
def writerOn (c : Channel) (drains : List (Option DrainAnswer)) (syncs : List (Option SyncAnswer)) : State :=
  { State.reset with writer := c, outputs := ⟨[(0#64, 0)], [⟨[], 0, drains, syncs⟩], 0⟩ }

/-- The outcome is a next state, and it is as the test says. -/
def nextWith (o : Host.Outcome State Fault Refusal) (p : State → Bool) : Bool :=
  match o with
  | .next t => p t
  | .fault _ => false
  | .refused _ => false

def ones : List Byte := List.replicate 8 0xFF#8

/-! ## One step of each instruction -/

/-- Vector RB4: 63 held bits and a read of 64. -/
theorem test_rd_boundary :
    nextWith (exec (.rd 64) (readerOn (holding 0x7FFFFFFFFFFFFFFF 63) [] [0x80#8, 0, 0, 0, 0, 0, 0, 0x01#8])) (fun t =>
      decide (t.reader = holding 1 63 ∧ responsesOf t.trace = [⟨.ok, 0#32, 0xFFFFFFFFFFFFFFFF#64⟩])) = true := by decide
/-- Vector RD16: ERR with enough bytes is still a failure. -/
theorem test_rd_transport_error :
    nextWith (exec (.rd 4) (readerOn (holding 5 3) [some ⟨deliver (List.replicate 8 9#8), .err 0x2A#32⟩] [])) (fun t =>
      decide (t.reader = latched (.transport 0x2A#32) ∧ responsesOf t.trace = [⟨.transport, 0x2A#32, 0#64⟩])) = true := by
  decide
/-- Vector WR10: 63 held bits and a write of 64. -/
theorem test_wr_boundary :
    nextWith (exec (.wr 0x8000000000000001#64 64) (writerOn (holding 0x7FFFFFFFFFFFFFFF 63) [] [])) (fun t =>
      decide (t.writer = holding 1 63 ∧ drainedBytes t.trace = ones)) = true := by decide
/-- Vector WR13: the high bits of the operand are masked off. -/
theorem test_wr_masks_its_operand :
    nextWith (exec (.wr 0xFFFFFFFFFFFFFFAB#64 8) (writerOn (holding 0xABCDEF012345678 60) [] [])) (fun t =>
      decide (t.writer = holding 0xB 4 ∧
        drainedBytes t.trace = [0xAB#8, 0xCD#8, 0xEF#8, 0x01#8, 0x23#8, 0x45#8, 0x67#8, 0x8A#8])) = true := by decide
/-- Vector FL2: twelve bits, padded to two bytes. -/
theorem test_flush_pads :
    nextWith (exec .flush (writerOn (holding 0x13 12) [] [])) (fun t =>
      decide (t.writer = holding 0 0 ∧ requestsOf t.trace = [.drain 0#64 [0x01#8, 0x30#8], .sync 0#64])) = true := by decide
/-- Vector FL10: no Sync after a failed Drain. -/
theorem test_flush_failed_drain :
    nextWith (exec .flush (writerOn (holding 0x13 12) [some (.err 0x1D#32 1)] [])) (fun t =>
      decide (t.writer = latched (.transport 0x1D#32) ∧ requestsOf t.trace = [.drain 0#64 [0x01#8, 0x30#8]] ∧
        responsesOf t.trace = [⟨.transport, 0x1D#32, 0#64⟩])) = true := by decide
/-- Vector B2 (with the handle of `latched`). -/
theorem test_rbind_clears_the_latch :
    nextWith (exec (.rbind 2#64) (readerOn (latched .unexpectedEoi) [] [])) (fun t =>
      decide (t.reader = ⟨0#64, 0, .none, 2#64⟩ ∧ responsesOf t.trace = [⟨.ok, 0#32, 0#64⟩])) = true := by decide
/-- Vector B3: pending bits are dropped without a Drain. -/
theorem test_wbind_drops_pending_bits :
    nextWith (exec (.wbind 7#64) (writerOn (holding 0x13 12) [] [])) (fun t =>
      decide (t.writer = ⟨0#64, 0, .none, 7#64⟩ ∧ requestsOf t.trace = [])) = true := by decide
/-- Vector B6. -/
theorem test_rpoll_reports :
    nextWith (exec .rpoll (readerOn (latched (.transport 0x2A#32)) [] [])) (fun t =>
      decide (responsesOf t.trace = [⟨.transport, 0x2A#32, 0#64⟩])) = true := by decide
/-- Vector B7. -/
theorem test_wpoll_reports :
    nextWith (exec .wpoll (writerOn (latched (.transport 0x1D#32)) [] [])) (fun t =>
      decide (responsesOf t.trace = [⟨.transport, 0x1D#32, 0#64⟩])) = true := by decide

/-- The first instruction after reset: WR 0x12, 4 (vector WR1). -/
theorem test_step_runs_the_word_offered :
    nextWith (step (State.reset.withFetchWord 80 0x20040000000000000012)) (fun t =>
      decide (t.writer = holding 2 4 ∧ t.port = [])) = true := by decide

/-- R99 (b): from reset, a read and a flush complete whatever the unknown stream 0 answers. -/
theorem test_first_transactions_complete :
    (∃ t, step (State.reset.withFetchWord 80 0x10030000000000000000) = .next t) ∧
    ∃ t, step (State.reset.withFetchWord 80 0x30000000000000000000) = .next t := ⟨⟨_, rfl⟩, _, rfl⟩

theorem test_table_word_is_the_command_word :
    decodeTableWord 80 0x50000000000000000001 = some (.wbind 1#64) ∧ decodeTableWord 80 0x80000000000000000000 = none := by
  decide

/-! ## Witnesses: what the hypotheses of the statements ask for can be had -/

/-- A state with one entry on the port. -/
def offering (p : PortInput) : State := { writerOn (holding 0x13 12) [] [] with port := [p] }

theorem witness_EncodeThenDecodeIsIdentity :
    (Instr.rd 127).wellFormed = true ∧ (Instr.wr 0xFFFFFFFFFFFFFFFF#64 (-128)).wellFormed = true := by decide

theorem witness_DecodeReadsTheFieldsOfEveryWord : (0xF0FF8000000000000001#80 : CmdWord).extractLsb' 72 4 = 0#4 := by decide

theorem witness_AssemblerAcceptsOnlyWellFormed : parseLine "RD -128".toList = .ok (some (.rd (-128))) := by decide

/-- The counts at both ends of the field and next to them, and the last value that fits and the first that does not. -/
theorem witness_AssemblerReadsEachCommand :
    SpellsCount "127".toList 127 ∧ SpellsCount "128".toList 128 ∧ SpellsCount "-128".toList (-128) ∧
    SpellsCount "-129".toList (-129) ∧ SpellsWord "0xFFFFFFFFFFFFFFFF".toList (2 ^ 64 - 1) ∧
    SpellsWord "18446744073709551616".toList (2 ^ 64) ∧ SpellsWord "0b10010".toList 18 :=
  ⟨⟨[1, 2, 7], by decide, .inl (by decide)⟩, ⟨[1, 2, 8], by decide, .inl (by decide)⟩,
    ⟨[1, 2, 8], by decide, .inr (by decide)⟩, ⟨[1, 2, 9], by decide, .inr (by decide)⟩,
    .inr (.inl ⟨List.replicate 16 15, by decide, by decide, by decide⟩),
    .inl ⟨[1, 8, 4, 4, 6, 7, 4, 4, 0, 7, 3, 7, 0, 9, 5, 5, 1, 6, 1, 6], by decide, by decide, by decide⟩,
    .inr (.inr ⟨[1, 0, 0, 1, 0], by decide, by decide, by decide⟩)⟩

theorem witness_StepExecutesTheDecodedInstruction :
    (offering (.command 0x30000000000000000000#80)).port = [.command 0x30000000000000000000#80] ∧
    decode 0x30000000000000000000#80 = .ok .flush := by decide

/-- The three ways to be illegal, each at an edge of its range. -/
theorem witness_IllegalCommandIsAnsweredWithoutEffect :
    (offering (.command 0x00000000000000000000#80)).port = [.command 0x00000000000000000000#80] ∧
    (0x00000000000000000000#80 : CmdWord).extractLsb' 76 4 = 0#4 ∧
    8 ≤ ((0x80000000000000000000#80 : CmdWord).extractLsb' 76 4).toNat ∧
    (0x71000000000000000000#80 : CmdWord).extractLsb' 72 4 ≠ 0#4 := by decide

theorem witness_IdleUnitKeepsItsState : (writerOn (holding 0x13 12) [] []).port = [] := rfl

theorem witness_HardwareResetLeavesTheResetState : (offering .reset).port = [.reset] := rfl

theorem witness_CommandCutByResetGivesNoResponse :
    (offering (.cutByReset 0x30000000000000000000#80 [false])).port = .cutByReset 0x30000000000000000000#80 [false] :: [] ∧
    ∀ b ∈ [false], b = false := by decide

theorem witness_FlushCutDuringItsSync :
    (offering (.cutByReset 0x30000000000000000000#80 [true, false])).port =
      [.cutByReset 0x30000000000000000000#80 [true, false]] ∧
    decode 0x30000000000000000000#80 = .ok .flush ∧
    (offering .reset).writer.err = .none ∧ (offering .reset).writer.cnt ≠ 0 ∧
    (offering .reset).outputs.stream 0#64 = some (0, ⟨[], 0, [], []⟩) := by decide

/-- A reader or writer state with a command that is cut off after its first transaction was performed. -/
def cutAfterOne (s : State) (w : CmdWord) : State := { s with port := [.cutByReset w [true]] }

/-- RD 4 from three held bits, on a reference stream that ends with ERR and on a silent one; WR of 64 from 63 bits; FLUSH from 12. -/
theorem witness_CutTransactionTakesEffectWholly :
    decode 0x10040000000000000000#80 = .ok (.rd 4) ∧ (holding 5 3).err = .none ∧ (4 : Int) ≤ 64 ∧
    ((holding 5 3).cnt : Int) < 4 ∧
    (cutAfterOne (readerOn (holding 5 3) [] ones) 0x10040000000000000000#80).inputs.RefersToUntil 0#64 ones .eof ∧
    (cutAfterOne (readerOn (holding 5 3) [none] ones) 0x10040000000000000000#80).inputs.stream 0#64 =
      some (0, ⟨[none], ones, 0, .eof⟩) ∧
    decode 0x20408000000000000001#80 = .ok (.wr 0x8000000000000001#64 64) ∧ (holding 0x7FFFFFFFFFFFFFFF 63).Inv ∧
    (holding 0x7FFFFFFFFFFFFFFF 63).err = .none ∧ (64 : Int) ≤ ((holding 0x7FFFFFFFFFFFFFFF 63).cnt : Int) + 64 ∧
    (writerOn (holding 0x7FFFFFFFFFFFFFFF 63) [] []).outputs.stream 0#64 = some (0, ⟨[], 0, [], []⟩) ∧
    bitsOfBytes ones =
      ((holding 0x7FFFFFFFFFFFFFFF 63).bits ++ bitsOf (0x8000000000000001#64).toNat (64 : Int).toNat).take 64 ∧
    decode 0x30000000000000000000#80 = .ok .flush ∧ (holding 0x13 12).Inv ∧ (holding 0x13 12).err = .none ∧
    (holding 0x13 12).cnt ≠ 0 ∧ ((holding 0x13 12).cnt + 4) % 8 = 0 ∧
    bitsOfBytes [0x01#8, 0x30#8] = (holding 0x13 12).bits ++ List.replicate 4 false :=
  ⟨by decide, rfl, by decide, by decide, ⟨0, _, rfl, rfl, rfl, by decide, rfl⟩, rfl, by decide, by decide, rfl, by decide,
    rfl, by decide, by decide, by decide, rfl, by decide, by decide, by decide⟩

/-- 63 pending bits, the largest accumulator, and a command that empties it. -/
theorem witness_EveryStepKeepsTheInvariants :
    State.Inv { writerOn (holding 0x7FFFFFFFFFFFFFFF 63) [] [] with port := [.command 0x30000000000000000000#80] } ∧
    ∃ t, step { writerOn (holding 0x7FFFFFFFFFFFFFFF 63) [] [] with port := [.command 0x30000000000000000000#80] } = .next t :=
  ⟨by decide, _, rfl⟩

/-- Both channels latched, and RD 64 on the port. -/
def bothLatched : State :=
  { State.reset with
    reader := latched .unexpectedEoi
    writer := latched (.transport 0x1D#32)
    port := [.command 0x10400000000000000000#80] }

theorem witness_LatchStaysUntilRebindOrReset :
    (∃ t, step bothLatched = .next t) ∧ (∀ rest, bothLatched.port ≠ .reset :: rest) ∧
    (∀ w l rest, bothLatched.port ≠ .cutByReset w l :: rest) ∧
    bothLatched.reader.err ≠ .none ∧ bothLatched.writer.err ≠ .none ∧
    (∀ w rest h, bothLatched.port = .command w :: rest → decode w ≠ .ok (.rbind h)) ∧
    (∀ w rest h, bothLatched.port = .command w :: rest → decode w ≠ .ok (.wbind h)) := by
  refine ⟨⟨_, rfl⟩, nofun, nofun, by decide, by decide, ?_, ?_⟩ <;>
  · intro w rest h hp hd
    have hw : 0x10400000000000000000#80 = w := by
      have := (List.cons.inj hp).1
      injection this
    have hr : decode 0x10400000000000000000#80 = .ok (.rd 64) := by decide
    rw [← hw, hr] at hd
    simp at hd

theorem witness_EveryCommandGivesExactlyOneResponse :
    ∃ t, exec .flush (writerOn (holding 0x13 12) [] []) = .next t := ⟨_, rfl⟩

/-- RD at the edge of its accumulator, WR at 64 bits, FLUSH latched, empty, with one pending bit, and a failed Drain; the commands
without transactions, a reset and an illegal word. -/
theorem witness_CommandsIssueTheTransactionsOfTheTable :
    (∃ t, exec (.rd 4) (readerOn (holding 5 3) [] [0xFF#8]) = .next t) ∧
    (∃ t, exec (.wr 1#64 1) (writerOn (holding 0 63) [] []) = .next t) ∧
    (∃ t, exec .flush (writerOn (latched (.transport 1#32)) [] []) = .next t) ∧
    (∃ t, exec .flush (writerOn (holding 0 0) [] []) = .next t) ∧
    (∃ t, exec .flush (writerOn (holding 1 1) [some (.err 7#32 0)] []) = .next t) ∧
    (∃ t, exec (.wbind 1#64) State.reset = .next t) ∧
    (∃ t, step (offering .reset) = .next t) ∧
    (∃ t, step (offering (.command 0#80)) = .next t) ∧ decode 0#80 = .error .undefinedOpcode :=
  ⟨⟨_, rfl⟩, ⟨_, rfl⟩, ⟨_, rfl⟩, ⟨_, rfl⟩, ⟨_, rfl⟩, ⟨_, rfl⟩, ⟨_, rfl⟩, ⟨_, rfl⟩, by decide⟩

theorem witness_CommandsLeaveTheOtherChannelAlone :
    isReaderCommand (.rd 4) = true ∧ (∃ t, exec (.rd 4) (readerOn (holding 5 3) [] [0xFF#8]) = .next t) ∧
    isReaderCommand .flush = false ∧ ∃ t, exec .flush (writerOn (holding 0x13 12) [] []) = .next t :=
  ⟨rfl, ⟨_, rfl⟩, rfl, ⟨_, rfl⟩⟩

/-- Two states that agree on the reader and its streams and differ in the writer, and the other way round. -/
theorem witness_CommandsDependOnTheirOwnChannelOnly :
    isReaderCommand (.rd 4) = true ∧
    (readerOn (holding 5 3) [] [0xFF#8]).reader = { readerOn (holding 5 3) [] [0xFF#8] with writer := holding 1 1 }.reader ∧
    (∃ t, exec (.rd 4) (readerOn (holding 5 3) [] [0xFF#8]) = .next t) ∧
    isReaderCommand .flush = false ∧
    (writerOn (holding 5 3) [none] []).outputs = { writerOn (holding 5 3) [none] [] with reader := holding 1 1 }.outputs ∧
    exec .flush (writerOn (holding 5 3) [none] []) = .fault .outputNeverAnswers :=
  ⟨rfl, rfl, ⟨_, rfl⟩, rfl, rfl, rfl⟩

theorem witness_ReaderAndWriterCommandsCommute :
    isReaderCommand (.rd 4) = true ∧ isReaderCommand (.wr 1#64 1) = false ∧
    ∃ m t, exec (.rd 4) (readerOn (holding 5 3) [] [0xFF#8]) = .next m ∧ exec (.wr 1#64 1) m = .next t :=
  ⟨rfl, rfl, _, _, rfl, rfl⟩

/-- The counts next to the legal range. -/
theorem witness_InvalidCountChangesNothing : ((-1 : Int) < 0 ∨ 64 < (-1 : Int)) ∧ ((65 : Int) < 0 ∨ 64 < (65 : Int)) := by
  decide

/-- The ends of the legal range, with each error a channel can have latched. -/
theorem witness_LatchedChannelAnswersItsError :
    ((0 : Int) ≤ 0 ∧ (0 : Int) ≤ 64) ∧ ((0 : Int) ≤ 64 ∧ (64 : Int) ≤ 64) ∧
    bothLatched.reader.err = .unexpectedEoi ∧
    (readerOn (latched (.transport 0#32)) [] []).reader.err = .transport 0#32 ∧
    bothLatched.writer.err = .transport 0x1D#32 := by decide

theorem witness_OnlyFailuresSetTheLatch :
    (readerOn (holding 5 3) [] []).reader.err = .none ∧
    (∃ t, exec (.rd 4) (readerOn (holding 5 3) [] []) = .next t ∧ t.reader.err ≠ .none) ∧
    (writerOn (holding 0 63) [some (.err 9#32 0)] []).writer.err = .none ∧
    ∃ t, exec (.wr 0#64 1) (writerOn (holding 0 63) [some (.err 9#32 0)] []) = .next t ∧ t.writer.err ≠ .none :=
  ⟨rfl, ⟨_, rfl, by decide⟩, rfl, _, rfl, by decide⟩

/-- Each clause at the edge of its range: `cnt + 1` bits, 64 bits, one pending bit, no pending bit, and one pending bit that a Drain
takes before the silence. -/
theorem witness_SilentStreamsStopTheUnit :
    ((holding 5 3).err = .none ∧ (readerOn (holding 5 3) [none] []).reader.cnt < (4 : Int).toNat ∧
      (readerOn (holding 5 3) [none] []).inputs.fill 0#64 = none) ∧
    ((holding 0 63).err = .none ∧ 64 ≤ (writerOn (holding 0 63) [none] []).writer.cnt + (1 : Int).toNat ∧
      ∀ bytes, (writerOn (holding 0 63) [none] []).outputs.drain 0#64 bytes = none) ∧
    ((holding 1 1).err = .none ∧ (writerOn (holding 1 1) [none] []).writer.cnt ≠ 0 ∧
      ∀ bytes, (writerOn (holding 1 1) [none] []).outputs.drain 0#64 bytes = none) ∧
    ((holding 0 0).err = .none ∧ (writerOn (holding 0 0) [] [none]).writer.cnt = 0 ∧
      (writerOn (holding 0 0) [] [none]).outputs.sync 0#64 = none) ∧
    (writerOn (holding 1 1) [] [none]).writer.cnt ≠ 0 ∧
      ∀ bytes, ∃ e, (writerOn (holding 1 1) [] [none]).outputs.drain 0#64 bytes = some (.ok, e) ∧ e.sync 0#64 = none :=
  ⟨⟨rfl, by decide, rfl⟩, ⟨rfl, by decide, fun _ => rfl⟩, ⟨rfl, by decide, fun _ => rfl⟩, ⟨rfl, rfl, rfl⟩, by decide,
    fun _ => ⟨_, rfl, rfl⟩⟩

/-- All 63 held bits. -/
theorem witness_ReadFastPath :
    (readerOn (holding 0x7FFFFFFFFFFFFFFF 63) [] []).reader.Inv ∧
    (readerOn (holding 0x7FFFFFFFFFFFFFFF 63) [] []).reader.err = .none ∧ (0 : Int) ≤ 63 ∧
    (63 : Int) ≤ (readerOn (holding 0x7FFFFFFFFFFFFFFF 63) [] []).reader.cnt := by decide

theorem witness_ZeroCountsAreNoOperations :
    State.Inv { readerOn (holding 5 3) [] [] with writer := holding 0x13 12 } ∧
    (holding 5 3).err = .none ∧ (holding 0x13 12).err = .none := by decide

/-- 63 held bits, a read of 64 and one byte with EOF (vector RB5). -/
theorem witness_ReadSlowPath :
    (holding 0x7FFFFFFFFFFFFFFF 63).Inv ∧ (holding 0x7FFFFFFFFFFFFFFF 63).err = .none ∧ (64 : Int) ≤ 64 ∧
    ((holding 0x7FFFFFFFFFFFFFFF 63).cnt : Int) < 64 ∧
    (∃ e, (readerOn (holding 0x7FFFFFFFFFFFFFFF 63) [some ⟨deliver [0#8], .eof⟩] []).inputs.fill 0#64 =
      some (⟨deliver [0#8], .eof⟩, e)) ∧
    (∀ c, FillTerm.eof ≠ .err c) ∧ (64 : Int) ≤ ((63 : Nat) : Int) + 8 * ((deliver [0#8]).bytes.length : Int) :=
  ⟨by decide, rfl, by decide, by decide, ⟨_, rfl⟩, nofun, by decide⟩

/-- Three held bits, one byte, a read of 12 (vector RD13). -/
theorem witness_ReadShortfallLatchesUnexpectedEoi :
    (holding 5 3).err = .none ∧ (12 : Int) ≤ 64 ∧
    (∃ e, (readerOn (holding 5 3) [some ⟨deliver [0xF0#8], .ok⟩] []).inputs.fill 0#64 =
      some (⟨deliver [0xF0#8], .ok⟩, e)) ∧
    (∀ c, FillTerm.ok ≠ .err c) ∧ ((holding 5 3).cnt : Int) + 8 * ((deliver [0xF0#8]).bytes.length : Int) < 12 :=
  ⟨rfl, by decide, ⟨_, rfl⟩, nofun, by decide⟩

/-- Vector RD15. -/
theorem witness_ReadTransportErrorLatchesItsCode :
    (holding 5 3).err = .none ∧ (4 : Int) ≤ 64 ∧ ((holding 5 3).cnt : Int) < 4 ∧
    ∃ e, (readerOn (holding 5 3) [some ⟨deliver [], .err 0x2A#32⟩] []).inputs.fill 0#64 =
      some (⟨deliver [], .err 0x2A#32⟩, e) := ⟨rfl, by decide, by decide, _, rfl⟩

theorem witness_PollReportsTheLatch :
    (holding 5 3).err = .none ∧ (latched .unexpectedEoi).err = .unexpectedEoi ∧
    (latched (.transport 0#32)).err = .transport 0#32 := by decide

/-- A total of 63 (vector WR7). -/
theorem witness_WriteAppendsWithoutEmission :
    (holding 0x3FFFFFFFFFFFFFFF 62).Inv ∧ (holding 0x3FFFFFFFFFFFFFFF 62).err = .none ∧ (0 : Int) ≤ 1 ∧
    ((holding 0x3FFFFFFFFFFFFFFF 62).cnt : Int) + 1 < 64 := by decide

/-- A total of 64 (vector WR9). -/
theorem witness_WriteEmitsOneWord :
    (holding 0x7FFFFFFFFFFFFFFF 63).Inv ∧ (holding 0x7FFFFFFFFFFFFFFF 63).err = .none ∧ (0 : Int) ≤ 1 ∧ (1 : Int) ≤ 64 ∧
    (64 : Int) ≤ ((holding 0x7FFFFFFFFFFFFFFF 63).cnt : Int) + 1 ∧
    bitsOfBytes ones = ((holding 0x7FFFFFFFFFFFFFFF 63).bits ++ bitsOf (1#64).toNat (1 : Int).toNat).take 64 ∧
    ∃ e, (writerOn (holding 0x7FFFFFFFFFFFFFFF 63) [] []).outputs.drain 0#64 ones = some (.ok, e) :=
  ⟨by decide, rfl, by decide, by decide, by decide, by decide, _, rfl⟩

/-- A write of 64 whose Drain fails, from 63 held bits. -/
theorem witness_WriteDrainFailureLatches :
    (holding 0x7FFFFFFFFFFFFFFF 63).Inv ∧ (holding 0x7FFFFFFFFFFFFFFF 63).err = .none ∧ (0 : Int) ≤ 64 ∧ (64 : Int) ≤ 64 ∧
    (64 : Int) ≤ ((holding 0x7FFFFFFFFFFFFFFF 63).cnt : Int) + 64 ∧
    bitsOfBytes ones =
      ((holding 0x7FFFFFFFFFFFFFFF 63).bits ++ bitsOf (0x8000000000000000#64).toNat (64 : Int).toNat).take 64 ∧
    ∃ e, (writerOn (holding 0x7FFFFFFFFFFFFFFF 63) [some (.err 0x1D#32 3)] []).outputs.drain 0#64 ones =
      some (.err 0x1D#32 3, e) :=
  ⟨by decide, rfl, by decide, by decide, by decide, by decide, _, rfl⟩

/-- Vectors FL1 and FL12. -/
theorem witness_FlushOfAnEmptyWriterOnlySyncs :
    (holding 0 0).Inv ∧ (holding 0 0).err = .none ∧ (holding 0 0).cnt = 0 ∧
    (∃ e, (writerOn (holding 0 0) [] []).outputs.sync 0#64 = some (.ok, e)) ∧
    ∃ e, (writerOn (holding 0 0) [] [some (.err 0x1E#32)]).outputs.sync 0#64 = some (.err 0x1E#32, e) :=
  ⟨by decide, rfl, rfl, ⟨_, rfl⟩, _, rfl⟩

/-- Vectors FL2, FL10 and FL11. -/
theorem witness_FlushPadsDrainsAndSyncs :
    (holding 0x13 12).Inv ∧ (holding 0x13 12).err = .none ∧ (holding 0x13 12).cnt ≠ 0 ∧ 4 < 8 ∧
    ((holding 0x13 12).cnt + 4) % 8 = 0 ∧
    bitsOfBytes [0x01#8, 0x30#8] = (holding 0x13 12).bits ++ List.replicate 4 false ∧
    (∃ e e', (writerOn (holding 0x13 12) [] []).outputs.drain 0#64 [0x01#8, 0x30#8] = some (.ok, e) ∧
      e.sync 0#64 = some (.ok, e')) ∧
    (∃ e, (writerOn (holding 0x13 12) [some (.err 0x1D#32 1)] []).outputs.drain 0#64 [0x01#8, 0x30#8] =
      some (.err 0x1D#32 1, e)) ∧
    ∃ e e', (writerOn (holding 0x13 12) [] [some (.err 0x1E#32)]).outputs.drain 0#64 [0x01#8, 0x30#8] = some (.ok, e) ∧
      e.sync 0#64 = some (.err 0x1E#32, e') :=
  ⟨by decide, rfl, by decide, by decide, by decide, by decide, ⟨_, _, rfl, rfl⟩, ⟨_, rfl⟩, _, _, rfl, rfl⟩

/-- Pending bits that are whole bytes already (vector FL5) and 63 of them (vector FL9): the least and the most padding but one. -/
theorem witness_FlushPadsDrainsAndSyncs_aligned :
    (holding 0xAB 8).Inv ∧ ((holding 0xAB 8).cnt + 0) % 8 = 0 ∧ bitsOfBytes [0xAB#8] = (holding 0xAB 8).bits ++ [] ∧
    (holding 0x7FFFFFFFFFFFFFFF 63).Inv ∧ ((holding 0x7FFFFFFFFFFFFFFF 63).cnt + 1) % 8 = 0 := by decide

theorem witness_BytesAndValuesAreInverse : ones.length ≤ 8 ∧ 64 % 8 = 0 ∧ 0xFFFFFFFFFFFFFFFF < 2 ^ 64 := by decide

theorem witness_BytesCarryBitsMostSignificantFirst : 64 % 8 = 0 ∧ 63 < 64 := by decide

/-- A stream with nine bytes left, and one with none for each ending. -/
theorem witness_ReferenceInputDeliversUpToEight :
    (readerOn (holding 0 0) [] (ones ++ [1#8])).inputs.RefersToUntil 0#64 (ones ++ [1#8]) .eof ∧
    (readerOn (holding 0 0) [] []).inputs.RefersToUntil 0#64 [] .eof ∧
    (⟨[(0#64, 0)], [⟨[], ones, 8, .err 0x2A#32⟩], 0⟩ : InputSide).RefersToUntil 0#64 [] (.err 0x2A#32) :=
  ⟨⟨0, _, rfl, rfl, rfl, by decide, rfl⟩, ⟨0, _, rfl, rfl, rfl, by decide, rfl⟩, ⟨0, _, rfl, rfl, rfl, by decide, rfl⟩⟩

/-- Two streams: a transaction on one, answered, and a handle that names the other. -/
theorem witness_TransactionsLeaveOtherStreamsAlone :
    (∃ a e', (⟨[(0#64, 0), (1#64, 1)], [⟨[], ones, 0, .eof⟩, ⟨[], [], 0, .eof⟩], 0⟩ : InputSide).fill 0#64 = some (a, e')) ∧
    (∃ e', (⟨[(0#64, 0), (1#64, 1)], [⟨[], 0, [], []⟩, ⟨ones, 0, [], []⟩], 0⟩ : OutputSide).drain 0#64 ones = some (.ok, e')) ∧
    (∃ e', (⟨[(0#64, 0), (1#64, 1)], [⟨[], 0, [], []⟩, ⟨ones, 0, [], []⟩], 0⟩ : OutputSide).sync 0#64 = some (.ok, e')) ∧
    (⟨[(0#64, 0), (1#64, 1)], [⟨[], 0, [], []⟩, ⟨ones, 0, [], []⟩], 0⟩ : OutputSide).stream 1#64 =
      some (1, ⟨ones, 0, [], []⟩) :=
  ⟨⟨_, _, rfl⟩, ⟨_, rfl⟩, ⟨_, rfl⟩, rfl⟩

/-- Three held bits and one byte: a read of 11 is just covered, a read of 12 is not. -/
theorem witness_ShortfallExactlyWhenTheStreamIsExhausted :
    (holding 5 3).Inv ∧ (holding 5 3).err = .none ∧ (readerOn (holding 5 3) [] [0xF0#8]).inputs.RefersTo 0#64 [0xF0#8] ∧
    ((3 : Nat) : Int) < 11 ∧ (11 : Int) ≤ 3 + 8 * (([0xF0#8] : List Byte).length : Int) ∧
    (3 : Int) + 8 * (([0xF0#8] : List Byte).length : Int) < 12 :=
  ⟨by decide, rfl, ⟨0, _, rfl, rfl, rfl, by decide, rfl⟩, by decide, by decide, by decide⟩

theorem witness_DrainAppendsAPrefix :
    (∃ e', (writerOn (holding 0 0) [some (.err 1#32 1)] []).outputs.drain 0#64 ones = some (.err 1#32 1, e')) ∧
    (writerOn (holding 0 0) [some (.err 1#32 1)] []).outputs.stream 0#64 = some (0, ⟨[], 0, [some (.err 1#32 1)], []⟩) ∧
    ([] : List Byte) <+: ones ∧ ones <+: ones := ⟨⟨_, rfl⟩, rfl, by decide, by decide⟩

theorem witness_FlushAnsweredOkHasSyncedEverything :
    (writerOn (holding 0x13 12) [] []).Inv ∧
    (writerOn (holding 0x13 12) [] []).outputs.stream 0#64 = some (0, ⟨[], 0, [], []⟩) ∧
    ∃ t, exec .flush (writerOn (holding 0x13 12) [] []) = .next t ∧
      t.trace.getLast? = some (.response ⟨.ok, 0#32, 0#64⟩) := ⟨by decide, rfl, _, rfl, by decide⟩

/-- A slow read and a fast one, no rebind, and no error at the end. -/
theorem witness_ReadsReturnTheStreamInOrder :
    (readerOn (holding 5 3) [] [0xF0#8]).Inv ∧
    (∃ t, Runs [.rd 7, .rd 4] (readerOn (holding 5 3) [] [0xF0#8]) t ∧ t.reader.err = .none) ∧
    ∀ h, Instr.rbind h ∉ [Instr.rd 7, .rd 4] :=
  ⟨by decide, ⟨_, ⟨_, rfl, _, rfl, rfl⟩, by decide⟩, by simp⟩

/-- A write that holds, one that emits, and a FLUSH. -/
theorem witness_WritesProduceThePackedBits :
    (writerOn (holding 0 0) [] []).Inv ∧ (writerOn (holding 0 0) [] []).writer.cnt = 0 ∧
    (∃ t, Runs [.wr 5#64 3, .wr 1#64 64, .flush] (writerOn (holding 0 0) [] []) t ∧ t.writer.err = .none) ∧
    ∀ h, Instr.wbind h ∉ [Instr.wr 5#64 3, .wr 1#64 64, .flush] :=
  ⟨by decide, rfl, ⟨_, ⟨_, rfl, _, rfl, _, rfl, rfl⟩, by decide⟩, by simp⟩

/-- Chunks of 3 and 64 bits, read back as 64 and 3; the two environments. -/
theorem witness_RoundTripReturnsTheBitsWritten :
    (∀ p ∈ [(5#64, 3), (1#64, 64)], p.2 ≤ 64) ∧ (∀ n ∈ [64, 3], n ≤ 64) ∧
    [64, 3].sum = ([(5#64, 3), (1#64, 64)].map Prod.snd).sum ∧
    (writerOn (holding 0 0) [] []).Inv ∧ (holding 0 0).cnt = 0 ∧ (holding 0 0).err = .none ∧
    (writerOn (holding 0 0) [] []).outputs.RefersTo 0#64 [] ∧
    (readerOn (holding 0 0) [] [0xA0#8, 0, 0, 0, 0, 0, 0, 0, 0x20#8]).Inv ∧
    (readerOn (holding 0 0) [] [0xA0#8, 0, 0, 0, 0, 0, 0, 0, 0x20#8]).inputs.RefersTo 0#64
      [0xA0#8, 0, 0, 0, 0, 0, 0, 0, 0x20#8] :=
  ⟨by decide, by decide, by decide, by decide, rfl, rfl, ⟨0, _, rfl, rfl, rfl, rfl⟩, by decide,
    ⟨0, _, rfl, rfl, rfl, by decide, rfl⟩⟩

end Sys2Proof.Tests
end

/-! SUPPORT. The statements of 00_scope.md: what a step executes, the bytes and bits of a value, and how the commands of the two
channels stand to each other. -/

namespace Sys2Proof.Machine

/-! ## One step -/

/-- A command word at the head of the port is what the unit takes next, and it takes nothing else. -/
theorem State.fetch_of_port {s : State} {p : PortInput} {rest : List PortInput} (hp : s.port = p :: rest) :
    s.fetch = some (p, { s with port := rest }) := by
  simp [State.fetch, hp]

theorem step_of_decode {s : State} {w : CmdWord} {rest : List PortInput} {i : Instr} (hp : s.port = .command w :: rest)
    (hd : decode w = .ok i) : step s = exec i { s with port := rest } := by
  simp only [step, State.fetch_of_port hp, hd]

/-! ## Bytes and values (00_scope.md R8, R9) -/

/-- Position `i` of the chunk of `n` bits with value `v` holds bit `n - 1 - i` of `v` (20_memory.md R38). -/
theorem bitsOf_getElem? {v n i : Nat} (hi : i < n) : (bitsOf v n)[i]? = some (v.testBit (n - 1 - i)) := by
  induction n generalizing i with
  | zero => omega
  | succ n ih =>
    cases i with
    | zero => simp [bitsOf]
    | succ i => simpa [bitsOf, Nat.sub_sub, Nat.add_comm] using ih (i := i) (by omega)

/-- A value of `n` bits is determined by its chunk. -/
theorem bitsOf_injective {a b n : Nat} (ha : a < 2 ^ n) (hb : b < 2 ^ n) (h : bitsOf a n = bitsOf b n) : a = b := by
  apply Nat.eq_of_testBit_eq
  intro i
  by_cases hi : i < n
  · have hget : (bitsOf a n)[n - 1 - i]? = (bitsOf b n)[n - 1 - i]? := by rw [h]
    rw [bitsOf_getElem? (by omega), bitsOf_getElem? (by omega), show n - 1 - (n - 1 - i) = i by omega] at hget
    exact Option.some.inj hget
  · rw [testBit_eq_false_of_lt_two_pow ha (by omega), testBit_eq_false_of_lt_two_pow hb (by omega)]

theorem bytesBe_getElem? {v n j : Nat} (hj : j < n / 8) :
    (bytesBe v n)[j]? = some (BitVec.ofNat 8 (v >>> (n - 8 * (j + 1)))) := by
  simp [bytesBe, hj]

theorem fromBytesBe_eq_sum (l : List Byte) :
    fromBytesBe l = ∑ j : Fin l.length, l[j].toNat * 2 ^ (8 * (l.length - 1 - j)) := by
  induction l with
  | nil => rfl
  | cons b bs ih =>
    rw [fromBytesBe, ih]
    refine Eq.trans ?_ (Fin.sum_univ_succ (n := bs.length) _).symm
    simp [Nat.sub_sub, Nat.add_comm]

theorem bytesBe_fromBytesBe (l : List Byte) : bytesBe (fromBytesBe l) (8 * l.length) = l :=
  bitsOfBytes_injective ((bitsOfBytes_bytesBe _ _).trans (bitsOf_fromBytesBe l))

theorem fromBytesBe_bytesBe {v m : Nat} (hv : v < 2 ^ (8 * m)) : fromBytesBe (bytesBe v (8 * m)) = v := by
  have hlen : (bytesBe v (8 * m)).length = m := by simp
  have hlt := fromBytesBe_lt (bytesBe v (8 * m))
  have hbits := (bitsOf_fromBytesBe (bytesBe v (8 * m))).trans (bitsOfBytes_bytesBe v m)
  rw [hlen] at hlt hbits
  exact bitsOf_injective hlt hv hbits

/-! ## What a command sees and does (10_state.md R25)

A reader command reads the reader and the input side and writes these two; beside that it appends events to the trace. So the
rest of the state may be exchanged under it; the same holds of a writer command and the other half. -/

/-- The state `u` with the reader and the input streams of `s`. -/
def State.withReaderOf (u s : State) : State := { u with reader := s.reader, inputs := s.inputs }

/-- The state `u` with the writer and the output streams of `s`. -/
def State.withWriterOf (u s : State) : State := { u with writer := s.writer, outputs := s.outputs }

@[simp] theorem State.withReaderOf_reader (u s : State) : (u.withReaderOf s).reader = s.reader := rfl

/-- Appends a list of events to the trace. -/
def State.log (s : State) (l : List Event) : State := { s with trace := s.trace ++ l }

/-- In whatever state the reader half of `s` stands, `f` turns that half into the one of `t`, adds the same events, and leaves the
rest. -/
def ActsOnReader (f : State → Host.Outcome State Fault Refusal) (s t : State) (l : List Event) : Prop :=
  ∀ u : State, f (u.withReaderOf s) = .next ((u.withReaderOf t).log l)

/-- The same for the writer half. -/
def ActsOnWriter (f : State → Host.Outcome State Fault Refusal) (s t : State) (l : List Event) : Prop :=
  ∀ u : State, f (u.withWriterOf s) = .next ((u.withWriterOf t).log l)

/-- An event recorded before the half is exchanged comes before those of the command. -/
theorem State.withReaderOf_record_log (u t : State) (e : Event) (l : List Event) :
    ((u.record e).withReaderOf t).log l = (u.withReaderOf t).log (e :: l) := by
  simp [State.log, State.withReaderOf]

theorem State.withWriterOf_record_log (u t : State) (e : Event) (l : List Event) :
    ((u.record e).withWriterOf t).log l = (u.withWriterOf t).log (e :: l) := by
  simp [State.log, State.withWriterOf]

theorem newEvents_eq {s t : State} {l : List Event} (h : t.trace = s.trace ++ l) : newEvents s t = l := by
  simp [newEvents, h]

/-! ### Reader commands -/

theorem execRd_invalidCount {n : Int} (s : State) (hc : countLegal n = false) :
    execRd n s = .next (s.respond .invalidCount) := by
  simp [execRd, hc]

theorem execRd_latched {s : State} {n : Int} (hc : countLegal n = true) (he : s.reader.err ≠ .none) :
    execRd n s = .next (s.respond s.reader.err.response) := by
  simp [execRd, hc, (Latch.isSet_iff _).mpr he]

theorem rdFast_withReaderOf (n : Nat) (u s : State) :
    rdFast n (u.withReaderOf s) = (u.withReaderOf (rdFast n s)).log
      [.response (.success (toWord (s.reader.buf.toNat >>> (s.reader.cnt - n))))] := rfl

theorem rdRefill_withReaderOf (n : Nat) (bytes : List Byte) (u s : State) :
    rdRefill n bytes (u.withReaderOf s) = (u.withReaderOf (rdRefill n bytes s)).log
      [.response (.success (toWord ((s.reader.buf.toNat <<< (n - s.reader.cnt)) |||
        (fromBytesBe bytes >>> (8 * bytes.length - (n - s.reader.cnt))))))] := rfl

theorem failReader_withReaderOf (e : Latch) (u s : State) :
    (u.withReaderOf s).failReader e = (u.withReaderOf (s.failReader e)).log [.response e.response] := rfl

/-- The end of a slow read turns on the answer and the reader only. -/
theorem rdAnswered_actsOnReader (n : Nat) (a : FillAnswer) (s : State) :
    ∃ r, ∀ u : State, rdAnswered n a (u.withReaderOf s) = (u.withReaderOf (rdAnswered n a s)).log [.response r] := by
  unfold rdAnswered
  cases a.term with
  | err c => exact ⟨_, fun u => failReader_withReaderOf _ u s⟩
  | ok | eof =>
    by_cases hk : 8 * a.delivery.bytes.length < n - s.reader.cnt
    · simpa [hk] using ⟨_, fun u => failReader_withReaderOf .unexpectedEoi u s⟩
    · simpa [hk] using ⟨_, fun u => rdRefill_withReaderOf n a.delivery.bytes u s⟩

theorem execRd_actsOnReader {n : Int} {s t : State} (h : execRd n s = .next t) :
    ∃ l, ActsOnReader (execRd n) s t l := by
  obtain ⟨hc, rfl⟩ | ⟨hc, he, rfl⟩ | ⟨hc, he, hn, rfl⟩ | ⟨hc, he, hn, a, e, hf, rfl⟩ := execRd_cases h
  case inl => exact ⟨[.response .invalidCount], fun u => execRd_invalidCount _ hc⟩
  case inr.inl => exact ⟨[.response s.reader.err.response], fun u => execRd_latched hc he⟩
  case inr.inr.inl => exact ⟨_, fun u => (execRd_fast (s := u.withReaderOf s) hc he hn).trans
      (congrArg _ (rdFast_withReaderOf n.toNat u s))⟩
  case inr.inr.inr =>
    obtain ⟨r, hr⟩ := rdAnswered_actsOnReader n.toNat a ({ s with inputs := e }.record (.fill s.reader.sid a))
    refine ⟨[.fill s.reader.sid a, .response r], fun u => ?_⟩
    calc execRd n (u.withReaderOf s)
      _ = .next (rdAnswered n.toNat a ((u.record (.fill s.reader.sid a)).withReaderOf { s with inputs := e })) :=
          execRd_slow hc he hn hf
      _ = _ := congrArg _ ((hr _).trans (State.withReaderOf_record_log _ _ _ _))

theorem exec_actsOnReader {i : Instr} {s t : State} (hi : isReaderCommand i = true) (h : exec i s = .next t) :
    ∃ l, ActsOnReader (exec i) s t l := by
  cases i with
  | rd n => exact execRd_actsOnReader h
  | rbind b => cases h; exact ⟨[.response (.success 0#64)], fun u => rfl⟩
  | rpoll => cases h; exact ⟨[.response s.reader.err.response], fun u => rfl⟩
  | wr x n => cases hi
  | flush => cases hi
  | wbind b => cases hi
  | wpoll => cases hi

/-! ### Writer commands -/

theorem execWr_invalidCount {x : Word} {n : Int} (s : State) (hc : countLegal n = false) :
    execWr x n s = .next (s.respond .invalidCount) := by
  simp [execWr, hc]

theorem execWr_latched {s : State} {x : Word} {n : Int} (hc : countLegal n = true) (he : s.writer.err ≠ .none) :
    execWr x n s = .next (s.respond s.writer.err.response) := by
  simp [execWr, hc, (Latch.isSet_iff _).mpr he]

theorem execFlush_latched {s : State} (he : s.writer.err ≠ .none) :
    execFlush s = .next (s.respond s.writer.err.response) := by
  simp [execFlush, (Latch.isSet_iff _).mpr he]

theorem failWriter_withWriterOf (e : Latch) (u s : State) :
    (u.withWriterOf s).failWriter e = (u.withWriterOf (s.failWriter e)).log [.response e.response] := rfl

theorem wrAnswered_actsOnWriter (a : DrainAnswer) (s : State) :
    ∃ r, ∀ u : State, wrAnswered a (u.withWriterOf s) = (u.withWriterOf (wrAnswered a s)).log [.response r] := by
  cases a with
  | ok => exact ⟨.success 0#64, fun u => rfl⟩
  | err c k => exact ⟨_, fun u => failWriter_withWriterOf (.transport c) u s⟩

theorem flushSynced_actsOnWriter (a : SyncAnswer) (s : State) :
    ∃ r, ∀ u : State, flushSynced a (u.withWriterOf s) = (u.withWriterOf (flushSynced a s)).log [.response r] := by
  cases a with
  | ok => exact ⟨.success 0#64, fun u => rfl⟩
  | err c => exact ⟨_, fun u => failWriter_withWriterOf (.transport c) u s⟩

theorem execWr_actsOnWriter {x : Word} {n : Int} {s t : State} (h : execWr x n s = .next t) :
    ∃ l, ActsOnWriter (execWr x n) s t l := by
  obtain ⟨hc, rfl⟩ | ⟨hc, he, rfl⟩ | ⟨hc, he, hn, rfl⟩ | ⟨hc, he, hn, a, e, hd, rfl⟩ := execWr_cases h
  case inl => exact ⟨[.response .invalidCount], fun u => execWr_invalidCount _ hc⟩
  case inr.inl => exact ⟨[.response s.writer.err.response], fun u => execWr_latched hc he⟩
  case inr.inr.inl => exact ⟨[.response (.success 0#64)], fun u => execWr_append hc he hn⟩
  case inr.inr.inr =>
    obtain ⟨r, hr⟩ := wrAnswered_actsOnWriter a ({ s with writer := wrOverflow x n.toNat s.writer, outputs := e }.record
      (.drain s.writer.sid (wrEmitted x n.toNat s.writer) a))
    refine ⟨[.drain s.writer.sid (wrEmitted x n.toNat s.writer) a, .response r], fun u => ?_⟩
    calc execWr x n (u.withWriterOf s)
      _ = .next (wrAnswered a ((u.record (.drain s.writer.sid (wrEmitted x n.toNat s.writer) a)).withWriterOf
            { s with writer := wrOverflow x n.toNat s.writer, outputs := e })) := execWr_emit hc he hn hd
      _ = _ := congrArg _ ((hr _).trans (State.withWriterOf_record_log _ _ _ _))

theorem flushSync_actsOnWriter {s t : State} (h : flushSync s = .next t) : ∃ l, ActsOnWriter flushSync s t l := by
  obtain ⟨a, e, hy, rfl⟩ := flushSync_cases h
  obtain ⟨r, hr⟩ := flushSynced_actsOnWriter a ({ s with outputs := e }.record (.sync s.writer.sid a))
  refine ⟨[.sync s.writer.sid a, .response r], fun u => ?_⟩
  calc flushSync (u.withWriterOf s)
    _ = .next (flushSynced a ((u.record (.sync s.writer.sid a)).withWriterOf { s with outputs := e })) :=
        flushSync_answered hy
    _ = _ := congrArg _ ((hr _).trans (State.withWriterOf_record_log _ _ _ _))

theorem execFlush_actsOnWriter {s t : State} (h : execFlush s = .next t) : ∃ l, ActsOnWriter execFlush s t l := by
  obtain ⟨he, rfl⟩ | ⟨he, hc, hy⟩ | ⟨he, hc, a, e, hd, ⟨c, k, rfl, rfl⟩ | ⟨rfl, hy⟩⟩ := execFlush_cases h
  case inl => exact ⟨[.response s.writer.err.response], fun u => execFlush_latched he⟩
  case inr.inl =>
    obtain ⟨l, hl⟩ := flushSync_actsOnWriter hy
    exact ⟨l, fun u => (execFlush_empty (s := u.withWriterOf s) he hc).trans (hl u)⟩
  case inr.inr.inl =>
    refine ⟨[.drain s.writer.sid (flushBytes s.writer) (.err c k), .response (Latch.transport c).response], fun u => ?_⟩
    calc execFlush (u.withWriterOf s)
      _ = .next (((u.record (.drain s.writer.sid (flushBytes s.writer) (.err c k))).withWriterOf
            { s with writer := s.writer.emptied, outputs := e }).failWriter (.transport c)) :=
          execFlush_failed (s := u.withWriterOf s) he hc hd
      _ = _ := congrArg _ ((failWriter_withWriterOf _ _ _).trans (State.withWriterOf_record_log _ _ _ _))
  case inr.inr.inr =>
    obtain ⟨l, hl⟩ := flushSync_actsOnWriter hy
    refine ⟨.drain s.writer.sid (flushBytes s.writer) .ok :: l, fun u => ?_⟩
    calc execFlush (u.withWriterOf s)
      _ = flushSync ((u.record (.drain s.writer.sid (flushBytes s.writer) .ok)).withWriterOf
            { s with writer := s.writer.emptied, outputs := e }) :=
          execFlush_drained (s := u.withWriterOf s) he hc hd
      _ = _ := (hl _).trans (congrArg _ (State.withWriterOf_record_log _ _ _ _))

theorem exec_actsOnWriter {i : Instr} {s t : State} (hi : isReaderCommand i = false) (h : exec i s = .next t) :
    ∃ l, ActsOnWriter (exec i) s t l := by
  cases i with
  | wr x n => exact execWr_actsOnWriter h
  | flush => exact execFlush_actsOnWriter h
  | wbind b => cases h; exact ⟨[.response (.success 0#64)], fun u => rfl⟩
  | wpoll => cases h; exact ⟨[.response s.writer.err.response], fun u => rfl⟩
  | rd n => cases hi
  | rbind b => cases hi
  | rpoll => cases hi

/-! ### The two orders (00_scope.md R12) -/

/-- At `s` itself: the frame of an action on the reader half. -/
theorem ActsOnReader.eq_log {f : State → Host.Outcome State Fault Refusal} {s t : State} {l : List Event}
    (hf : ActsOnReader f s t l) (h : f s = .next t) : t = (s.withReaderOf t).log l :=
  Host.Outcome.next.inj (h.symm.trans (hf s))

/-- At `s` itself: the frame of an action on the writer half. -/
theorem ActsOnWriter.eq_log {f : State → Host.Outcome State Fault Refusal} {s t : State} {l : List Event}
    (hf : ActsOnWriter f s t l) (h : f s = .next t) : t = (s.withWriterOf t).log l :=
  Host.Outcome.next.inj (h.symm.trans (hf s))

/-- An action on the reader and one on the writer give, in either order, one state but for the trace, each with its own events. -/
theorem ActsOnReader.commutes {f g : State → Host.Outcome State Fault Refusal} {s m t : State} {lf lg : List Event}
    (hf : ActsOnReader f s m lf) (hg : ActsOnWriter g m t lg) (hm : f s = .next m) (ht : g m = .next t) :
    ∃ m' t', g s = .next m' ∧ f m' = .next t' ∧ { t' with trace := t.trace } = t ∧
      newEvents s m' = newEvents m t ∧ newEvents m' t' = newEvents s m := by
  have em := hf.eq_log hm
  have et := hg.eq_log ht
  have hs : s.withWriterOf m = s := by rw [em]; rfl
  have hlf : newEvents s m = lf := newEvents_eq (by rw [em]; rfl)
  have hlg : newEvents m t = lg := newEvents_eq (by rw [et]; rfl)
  refine ⟨(s.withWriterOf t).log lg, (((s.withWriterOf t).log lg).withReaderOf m).log lf, ?_, ?_, ?_, ?_, ?_⟩
  · rw [← hg s, hs]
  · exact hf ((s.withWriterOf t).log lg)
  · have hreader : t.reader = m.reader := by rw [et]; rfl
    have hinputs : t.inputs = m.inputs := by rw [et]; rfl
    have hport : t.port = s.port := by rw [et, em]; rfl
    calc ({ t with reader := m.reader, inputs := m.inputs, port := s.port } : State)
      _ = t := by rw [← hreader, ← hinputs, ← hport]
  · exact (newEvents_eq rfl).trans hlg.symm
  · exact (newEvents_eq rfl).trans hlf.symm

theorem exec_reader_writer_commute {i j : Instr} {s m t : State} (hi : isReaderCommand i = true)
    (hj : isReaderCommand j = false) (hm : exec i s = .next m) (ht : exec j m = .next t) :
    ∃ m' t', exec j s = .next m' ∧ exec i m' = .next t' ∧ { t' with trace := t.trace } = t ∧
      newEvents s m' = newEvents m t ∧ newEvents m' t' = newEvents s m := by
  obtain ⟨lf, hf⟩ := exec_actsOnReader hi hm
  obtain ⟨lg, hg⟩ := exec_actsOnWriter hj ht
  exact hf.commutes hg hm ht

end Sys2Proof.Machine

section

open Sys2Proof.Machine

/-- Settles O7: the fetch takes the word, and `step` hands the decoded instruction to `exec`. -/
theorem stepExecutesTheDecodedInstruction : Obligations.StepExecutesTheDecodedInstruction := by
  unfold Obligations.StepExecutesTheDecodedInstruction
  intro s w rest i hp hd
  exact step_of_decode hp hd

/-- Settles O37: the sum by induction on the bytes; the inverses because a byte list and a value below `2^n` are each determined by
their bits. -/
theorem bytesAndValuesAreInverse : Obligations.BytesAndValuesAreInverse := by
  unfold Obligations.BytesAndValuesAreInverse
  refine ⟨fun l _ => ⟨fromBytesBe_eq_sum l, fromBytesBe_lt l, bytesBe_fromBytesBe l⟩, ?_⟩
  intro v n hn _ hv
  obtain ⟨m, rfl⟩ := Nat.dvd_of_mod_eq_zero hn
  exact ⟨bytesBe_length v _, fromBytesBe_bytesBe hv⟩

/-- Settles O38: byte `i / 8` is the value shifted down by `n - 8 * (i / 8 + 1)`, so its bit `7 - i % 8` is bit `n - 1 - i`. -/
theorem bytesCarryBitsMostSignificantFirst : Obligations.BytesCarryBitsMostSignificantFirst := by
  unfold Obligations.BytesCarryBitsMostSignificantFirst
  intro v n i hn hi
  refine ⟨_, bytesBe_getElem? (by omega), ?_, bitsOf_getElem? hi⟩
  rw [BitVec.toNat_ofNat, Nat.testBit_mod_two_pow, Nat.testBit_shiftRight,
    show n - 8 * (i / 8 + 1) + (7 - i % 8) = n - 1 - i by omega]
  simp [show 7 - i % 8 < 8 by omega]

/-- Settles O20: a reader command reads and writes the reader half of the state only, a writer command the other half. -/
theorem readerAndWriterCommandsCommute : Obligations.ReaderAndWriterCommandsCommute := by
  unfold Obligations.ReaderAndWriterCommandsCommute
  intro i j s m t hi hj hm ht
  exact exec_reader_writer_commute hi hj hm ht

end

/-! SUPPORT. The statements of 10_state.md: the frame of a command and what it depends on, the events it adds, the invariants of a
channel, and what a latched channel answers. -/

namespace Sys2Proof.Machine

/-! ## A command sees and touches its own channel only (R25) -/

theorem exec_reader_frame {i : Instr} {s t : State} (hi : isReaderCommand i = true) (h : exec i s = .next t) :
    t.port = s.port ∧ t.writer = s.writer ∧ t.outputs = s.outputs := by
  obtain ⟨l, hl⟩ := exec_actsOnReader hi h
  rw [hl.eq_log h]
  exact ⟨rfl, rfl, rfl⟩

theorem exec_writer_frame {i : Instr} {s t : State} (hi : isReaderCommand i = false) (h : exec i s = .next t) :
    t.port = s.port ∧ t.reader = s.reader ∧ t.inputs = s.inputs := by
  obtain ⟨l, hl⟩ := exec_actsOnWriter hi h
  rw [hl.eq_log h]
  exact ⟨rfl, rfl, rfl⟩

theorem State.withReaderOf_eq_self {u s : State} (hr : s.reader = u.reader) (hin : s.inputs = u.inputs) :
    u.withReaderOf s = u := by
  rw [State.withReaderOf, hr, hin]

theorem State.withWriterOf_eq_self {u s : State} (hw : s.writer = u.writer) (hout : s.outputs = u.outputs) :
    u.withWriterOf s = u := by
  rw [State.withWriterOf, hw, hout]

/-- RD stops in one way only: its input stream never answers the Fill (70_reset_and_hazards.md R107). -/
theorem execRd_next_or_fault (n : Int) (s : State) :
    (∃ t, execRd n s = .next t) ∨ execRd n s = .fault .inputNeverAnswers := by
  unfold execRd
  split
  · exact .inl ⟨_, rfl⟩
  · split
    · exact .inl ⟨_, rfl⟩
    · split
      · exact .inl ⟨_, rfl⟩
      · split
        · exact .inr rfl
        · exact .inl ⟨_, rfl⟩

theorem exec_reader_next_or_fault {i : Instr} (hi : isReaderCommand i = true) (s : State) :
    (∃ t, exec i s = .next t) ∨ exec i s = .fault .inputNeverAnswers := by
  cases i with
  | rd n => exact execRd_next_or_fault n s
  | rbind b => exact .inl ⟨_, rfl⟩
  | rpoll => exact .inl ⟨_, rfl⟩
  | wr x n => cases hi
  | flush => cases hi
  | wbind b => cases hi
  | wpoll => cases hi

/-- WR stops in one way only: its output stream never answers the Drain (R107). -/
theorem execWr_next_or_fault (x : Word) (n : Int) (s : State) :
    (∃ t, execWr x n s = .next t) ∨ execWr x n s = .fault .outputNeverAnswers := by
  unfold execWr
  split
  · exact .inl ⟨_, rfl⟩
  · split
    · exact .inl ⟨_, rfl⟩
    · split
      · exact .inl ⟨_, rfl⟩
      · split
        · exact .inr rfl
        · exact .inl ⟨_, rfl⟩

theorem flushSync_next_or_fault (s : State) : (∃ t, flushSync s = .next t) ∨ flushSync s = .fault .outputNeverAnswers := by
  unfold flushSync
  split
  · exact .inr rfl
  · exact .inl ⟨_, rfl⟩

/-- FLUSH stops when its output stream never answers the Drain, or never answers the Sync (R107). -/
theorem execFlush_next_or_fault (s : State) : (∃ t, execFlush s = .next t) ∨ execFlush s = .fault .outputNeverAnswers := by
  unfold execFlush
  split
  · exact .inl ⟨_, rfl⟩
  · split
    · exact flushSync_next_or_fault _
    · split
      · exact .inr rfl
      · exact .inl ⟨_, rfl⟩
      · exact flushSync_next_or_fault _

theorem exec_writer_next_or_fault {i : Instr} (hi : isReaderCommand i = false) (s : State) :
    (∃ t, exec i s = .next t) ∨ exec i s = .fault .outputNeverAnswers := by
  cases i with
  | wr x n => exact execWr_next_or_fault x n s
  | flush => exact execFlush_next_or_fault s
  | wbind b => exact .inl ⟨_, rfl⟩
  | wpoll => exact .inl ⟨_, rfl⟩
  | rd n => cases hi
  | rbind b => cases hi
  | rpoll => cases hi

theorem exec_reader_next_of_agree {i : Instr} {s s' t : State} (hi : isReaderCommand i = true) (hr : s.reader = s'.reader)
    (hin : s.inputs = s'.inputs) (h : exec i s = .next t) :
    ∃ t', exec i s' = .next t' ∧ t'.reader = t.reader ∧ t'.inputs = t.inputs ∧ newEvents s' t' = newEvents s t := by
  obtain ⟨l, hl⟩ := exec_actsOnReader hi h
  have hs' : exec i s' = .next ((s'.withReaderOf t).log l) := State.withReaderOf_eq_self hr hin ▸ hl s'
  have hnew : newEvents s t = l := newEvents_eq (congrArg State.trace (hl.eq_log h))
  exact ⟨_, hs', rfl, rfl, (newEvents_eq rfl).trans hnew.symm⟩

theorem exec_writer_next_of_agree {i : Instr} {s s' t : State} (hi : isReaderCommand i = false) (hw : s.writer = s'.writer)
    (hout : s.outputs = s'.outputs) (h : exec i s = .next t) :
    ∃ t', exec i s' = .next t' ∧ t'.writer = t.writer ∧ t'.outputs = t.outputs ∧ newEvents s' t' = newEvents s t := by
  obtain ⟨l, hl⟩ := exec_actsOnWriter hi h
  have hs' : exec i s' = .next ((s'.withWriterOf t).log l) := State.withWriterOf_eq_self hw hout ▸ hl s'
  have hnew : newEvents s t = l := newEvents_eq (congrArg State.trace (hl.eq_log h))
  exact ⟨_, hs', rfl, rfl, (newEvents_eq rfl).trans hnew.symm⟩

/-- A command that stopped from `s` cannot complete from a state that agrees with `s`, for it would then complete from `s` too. -/
theorem exec_reader_fault_of_agree {i : Instr} {s s' : State} {f : Fault} (hi : isReaderCommand i = true)
    (hr : s.reader = s'.reader) (hin : s.inputs = s'.inputs) (h : exec i s = .fault f) : exec i s' = .fault f := by
  obtain ⟨t', ht'⟩ | hf' := exec_reader_next_or_fault hi s'
  · obtain ⟨t, ht, -⟩ := exec_reader_next_of_agree hi hr.symm hin.symm ht'
    cases h.symm.trans ht
  · obtain ⟨t, ht⟩ | hf := exec_reader_next_or_fault hi s
    · cases h.symm.trans ht
    · rw [hf', ← hf, h]

theorem exec_writer_fault_of_agree {i : Instr} {s s' : State} {f : Fault} (hi : isReaderCommand i = false)
    (hw : s.writer = s'.writer) (hout : s.outputs = s'.outputs) (h : exec i s = .fault f) : exec i s' = .fault f := by
  obtain ⟨t', ht'⟩ | hf' := exec_writer_next_or_fault hi s'
  · obtain ⟨t, ht, -⟩ := exec_writer_next_of_agree hi hw.symm hout.symm ht'
    cases h.symm.trans ht
  · obtain ⟨t, ht⟩ | hf := exec_writer_next_or_fault hi s
    · cases h.symm.trans ht
    · rw [hf', ← hf, h]

/-! ## The invariants of a channel (R21, R23, R24) -/

theorem Channel.inv_of_empty {c : Channel} (hb : c.buf = 0#64) (hc : c.cnt = 0) : c.Inv := by
  simp [Channel.Inv, hb, hc]

theorem Channel.inv_of_unlatched {c : Channel} (he : c.err = .none) (hc : c.cnt ≤ 63) (hb : c.buf.toNat < 2 ^ c.cnt) :
    c.Inv :=
  ⟨hc, hb, fun h => absurd he h⟩

theorem Channel.inv_latch (c : Channel) (e : Latch) : (c.latch e).Inv := Channel.inv_of_empty rfl rfl

theorem Channel.inv_keepLow {c : Channel} (v : Nat) {n : Nat} (he : c.err = .none) (hn : n ≤ 63) : (c.keepLow v n).Inv :=
  Channel.inv_of_unlatched he hn (toWord_and_mask_lt v n)

theorem inv_wrOverflow (x : Word) {n : Nat} {c : Channel} (he : c.err = .none) (hc : c.cnt ≤ 63) (hn : n ≤ 64) :
    (wrOverflow x n c).Inv :=
  Channel.inv_of_unlatched he (by simp only [wrOverflow_cnt]; omega) (toWord_and_mask_lt _ _)

/-- What every step keeps of the writer: its invariants, and that it never latches UNEXPECTED_EOI (R21). -/
def Channel.WriterInv (c : Channel) : Prop := c.Inv ∧ c.err ≠ .unexpectedEoi

theorem Channel.writerInv_of_unlatched {c : Channel} (hinv : c.Inv) (he : c.err = .none) : c.WriterInv :=
  ⟨hinv, by simp [he]⟩

theorem Channel.writerInv_latch_transport (c : Channel) (code : ErrorCode) : (c.latch (.transport code)).WriterInv :=
  ⟨c.inv_latch _, nofun⟩

theorem Channel.writerInv_emptied {c : Channel} (he : c.err = .none) : c.emptied.WriterInv :=
  Channel.writerInv_of_unlatched (Channel.inv_of_empty rfl rfl) he

theorem State.inv_iff (s : State) : s.Inv ↔ s.reader.Inv ∧ s.writer.WriterInv := .rfl

/-! ### Reader commands -/

/-- Of at most 64 fresh bits a refill takes at least one, so at most 63 stay. -/
theorem rdAnswered_reader_inv {n : Nat} (a : FillAnswer) {s : State} (he : s.reader.err = .none) (hn : s.reader.cnt < n) :
    (rdAnswered n a s).reader.Inv := by
  have hlen := a.delivery.atMostEight
  obtain ⟨c, -, h⟩ | ⟨-, -, h⟩ | ⟨-, -, h⟩ := rdAnswered_cases n a s <;> rw [h]
  case inl => exact Channel.inv_latch _ _
  case inr.inl => exact Channel.inv_latch _ _
  case inr.inr => exact Channel.inv_keepLow _ he (by omega)

theorem execRd_keeps_reader_inv {n : Int} {s t : State} (hinv : s.reader.Inv) (h : execRd n s = .next t) :
    t.reader.Inv := by
  have hcnt : s.reader.cnt ≤ 63 := hinv.1
  obtain ⟨-, rfl⟩ | ⟨-, -, rfl⟩ | ⟨-, he, -, rfl⟩ | ⟨-, he, hn, a, e, -, rfl⟩ := execRd_cases h
  case inl => exact hinv
  case inr.inl => exact hinv
  case inr.inr.inl => exact Channel.inv_keepLow _ he ((Nat.sub_le _ _).trans hcnt)
  case inr.inr.inr => exact rdAnswered_reader_inv a he hn

theorem exec_keeps_reader_inv {i : Instr} {s t : State} (hi : isReaderCommand i = true) (hinv : s.reader.Inv)
    (h : exec i s = .next t) : t.reader.Inv := by
  cases i with
  | rd n => exact execRd_keeps_reader_inv hinv h
  | rbind b => cases h; exact Channel.inv_of_empty rfl rfl
  | rpoll => cases h; exact hinv
  | wr x n => cases hi
  | flush => cases hi
  | wbind b => cases hi
  | wpoll => cases hi

/-! ### Writer commands -/

theorem wrAppend_writer_inv {x : Word} {n : Nat} {s : State} (hinv : s.writer.Inv) (he : s.writer.err = .none)
    (hn : s.writer.cnt + n < 64) : (wrAppend x n s).writer.Inv := by
  obtain ⟨-, hbuf, -⟩ := hinv
  exact Channel.inv_of_unlatched he (Nat.le_of_lt_succ hn) ((toWord_toNat_le _).trans_lt (wrCombined_lt hbuf))

theorem wrAnswered_keeps_writerInv (a : DrainAnswer) {s : State} (hinv : s.writer.WriterInv) :
    (wrAnswered a s).writer.WriterInv := by
  cases a with
  | ok => exact hinv
  | err c k => exact Channel.writerInv_latch_transport _ c

theorem flushSynced_keeps_writerInv (a : SyncAnswer) {s : State} (hinv : s.writer.WriterInv) :
    (flushSynced a s).writer.WriterInv := by
  cases a with
  | ok => exact hinv
  | err c => exact Channel.writerInv_latch_transport _ c

theorem execWr_keeps_writerInv {x : Word} {n : Int} {s t : State} (hinv : s.writer.WriterInv)
    (h : execWr x n s = .next t) : t.writer.WriterInv := by
  have hc : s.writer.Inv := hinv.1
  have hcnt : s.writer.cnt ≤ 63 := hc.1
  obtain ⟨-, rfl⟩ | ⟨-, -, rfl⟩ | ⟨-, he, hn, rfl⟩ | ⟨hlegal, he, -, a, e, -, rfl⟩ := execWr_cases h
  case inl => exact hinv
  case inr.inl => exact hinv
  case inr.inr.inl => exact Channel.writerInv_of_unlatched (wrAppend_writer_inv hc he hn) he
  case inr.inr.inr =>
    have hn := countLegal_iff.mp hlegal
    exact wrAnswered_keeps_writerInv a (Channel.writerInv_of_unlatched (inv_wrOverflow x he hcnt (by omega)) he)

theorem flushSync_keeps_writerInv {s t : State} (hinv : s.writer.WriterInv) (h : flushSync s = .next t) :
    t.writer.WriterInv := by
  obtain ⟨a, e, -, rfl⟩ := flushSync_cases h
  exact flushSynced_keeps_writerInv a hinv

theorem execFlush_keeps_writerInv {s t : State} (hinv : s.writer.WriterInv) (h : execFlush s = .next t) :
    t.writer.WriterInv := by
  obtain ⟨-, rfl⟩ | ⟨he, -, hy⟩ | ⟨he, -, a, e, -, ⟨c, k, -, rfl⟩ | ⟨-, hy⟩⟩ := execFlush_cases h
  case inl => exact hinv
  case inr.inl => exact flushSync_keeps_writerInv (Channel.writerInv_emptied he) hy
  case inr.inr.inl => exact Channel.writerInv_latch_transport _ c
  case inr.inr.inr => exact flushSync_keeps_writerInv (Channel.writerInv_emptied he) hy

theorem exec_keeps_writerInv {i : Instr} {s t : State} (hi : isReaderCommand i = false) (hinv : s.writer.WriterInv)
    (h : exec i s = .next t) : t.writer.WriterInv := by
  cases i with
  | wr x n => exact execWr_keeps_writerInv hinv h
  | flush => exact execFlush_keeps_writerInv hinv h
  | wbind b => cases h; exact ⟨Channel.inv_of_empty rfl rfl, nofun⟩
  | wpoll => cases h; exact hinv
  | rd n => cases hi
  | rbind b => cases hi
  | rpoll => cases hi

/-! ### Steps -/

theorem exec_keeps_inv {i : Instr} {s t : State} (hinv : s.Inv) (h : exec i s = .next t) : t.Inv := by
  obtain ⟨hr, hw⟩ := (State.inv_iff s).mp hinv
  cases hi : isReaderCommand i with
  | true =>
    obtain ⟨-, hwriter, -⟩ := exec_reader_frame hi h
    exact ⟨exec_keeps_reader_inv hi hr h, hwriter ▸ hw⟩
  | false =>
    obtain ⟨-, hreader, -⟩ := exec_writer_frame hi h
    exact ⟨hreader ▸ hr, exec_keeps_writerInv hi hw h⟩

/-- Whatever state a hardware reset finds, it leaves both channels empty and unlatched (70_reset_and_hazards.md R97, R99 (a)). -/
theorem inv_hardwareReset (s : State) : s.hardwareReset.Inv :=
  ⟨Channel.inv_of_empty rfl rfl, Channel.inv_of_empty rfl rfl, nofun⟩

theorem step_keeps_inv {s t : State} (hinv : s.Inv) (h : step s = .next t) : t.Inv := by
  obtain ⟨-, rfl⟩ | ⟨w, rest, i, -, -, hx⟩ | ⟨w, rest, e, -, -, rfl⟩ | ⟨rest, -, rfl⟩ | ⟨w, l, rest, -, rfl⟩ := step_cases h
  case inl => exact hinv
  case inr.inl => exact exec_keeps_inv (s := { s with port := rest }) hinv hx
  case inr.inr.inl => exact hinv
  case inr.inr.inr.inl => exact inv_hardwareReset _
  case inr.inr.inr.inr => exact inv_hardwareReset _

/-! ## What a trace says of the transactions in it (20_memory.md R37) -/

theorem fill_mem_requestsOf {l : List Event} {h : Handle} : Request.fill h ∈ requestsOf l ↔ ∃ a, Event.fill h a ∈ l := by
  simp only [requestsOf, List.mem_filterMap]
  constructor
  · rintro ⟨e, he, hr⟩
    cases e with
    | fill h' a => cases hr; exact ⟨a, he⟩
    | drain _ _ _ | sync _ _ => cases hr
    | response _ | reset | abandoned _ _ => cases hr
  · rintro ⟨a, ha⟩
    exact ⟨_, ha, rfl⟩

theorem drain_mem_requestsOf {l : List Event} {h : Handle} {bytes : List Byte} :
    Request.drain h bytes ∈ requestsOf l ↔ ∃ a, Event.drain h bytes a ∈ l := by
  simp only [requestsOf, List.mem_filterMap]
  constructor
  · rintro ⟨e, he, hr⟩
    cases e with
    | drain h' b a => cases hr; exact ⟨a, he⟩
    | fill _ _ | sync _ _ => cases hr
    | response _ | reset | abandoned _ _ => cases hr
  · rintro ⟨a, ha⟩
    exact ⟨_, ha, rfl⟩

theorem sync_mem_requestsOf {l : List Event} {h : Handle} : Request.sync h ∈ requestsOf l ↔ ∃ a, Event.sync h a ∈ l := by
  simp only [requestsOf, List.mem_filterMap]
  constructor
  · rintro ⟨e, he, hr⟩
    cases e with
    | sync h' a => cases hr; exact ⟨a, he⟩
    | fill _ _ | drain _ _ _ => cases hr
    | response _ | reset | abandoned _ _ => cases hr
  · rintro ⟨a, ha⟩
    exact ⟨_, ha, rfl⟩

theorem deliveredBytes_append (l m : List Event) : deliveredBytes (l ++ m) = deliveredBytes l ++ deliveredBytes m :=
  List.flatMap_append

theorem drainedBytes_append (l m : List Event) : drainedBytes (l ++ m) = drainedBytes l ++ drainedBytes m :=
  List.flatMap_append

theorem deliveredBytes_eq_nil {l : List Event} (hl : ∀ h a, Event.fill h a ∉ l) : deliveredBytes l = [] := by
  refine List.flatMap_eq_nil_iff.mpr fun e he => ?_
  cases e with
  | fill h a => exact absurd he (hl h a)
  | drain _ _ _ | sync _ _ | response _ | reset | abandoned _ _ => rfl

theorem drainedBytes_eq_nil {l : List Event} (hl : ∀ h bytes a, Event.drain h bytes a ∉ l) : drainedBytes l = [] := by
  refine List.flatMap_eq_nil_iff.mpr fun e he => ?_
  cases e with
  | drain h bytes a => exact absurd he (hl h bytes a)
  | fill _ _ | sync _ _ | response _ | reset | abandoned _ _ => rfl

/-- From `s` to `t` the trace grows, but by no Fill. -/
def AddsNoFill (s t : State) : Prop := ∃ l, t.trace = s.trace ++ l ∧ ∀ h a, Event.fill h a ∉ l

/-- From `s` to `t` the trace grows, but by no Drain and no Sync. -/
def AddsNoDrainOrSync (s t : State) : Prop :=
  ∃ l, t.trace = s.trace ++ l ∧ (∀ h bytes a, Event.drain h bytes a ∉ l) ∧ ∀ h a, Event.sync h a ∉ l

theorem AddsNoFill.requests {s t : State} (hadds : AddsNoFill s t) :
    (∀ h, Request.fill h ∉ requestsOf (newEvents s t)) ∧ deliveredBytes t.trace = deliveredBytes s.trace := by
  obtain ⟨l, ht, hl⟩ := hadds
  refine ⟨fun h hmem => ?_, by rw [ht, deliveredBytes_append, deliveredBytes_eq_nil hl, List.append_nil]⟩
  obtain ⟨a, ha⟩ := fill_mem_requestsOf.mp (newEvents_eq ht ▸ hmem)
  exact hl h a ha

theorem AddsNoDrainOrSync.requests {s t : State} (hadds : AddsNoDrainOrSync s t) :
    (∀ h bytes, Request.drain h bytes ∉ requestsOf (newEvents s t) ∧ Request.sync h ∉ requestsOf (newEvents s t)) ∧
      drainedBytes t.trace = drainedBytes s.trace := by
  obtain ⟨l, ht, hdrain, hsync⟩ := hadds
  refine ⟨fun h bytes => ⟨fun hmem => ?_, fun hmem => ?_⟩,
    by rw [ht, drainedBytes_append, drainedBytes_eq_nil hdrain, List.append_nil]⟩
  · obtain ⟨a, ha⟩ := drain_mem_requestsOf.mp (newEvents_eq ht ▸ hmem)
    exact hdrain h bytes a ha
  · obtain ⟨a, ha⟩ := sync_mem_requestsOf.mp (newEvents_eq ht ▸ hmem)
    exact hsync h a ha

theorem addsNoFill_respond (s : State) (r : Response) : AddsNoFill s (s.respond r) := ⟨[.response r], rfl, by simp⟩

theorem addsNoDrainOrSync_respond (s : State) (r : Response) : AddsNoDrainOrSync s (s.respond r) :=
  ⟨[.response r], rfl, by simp, by simp⟩

/-! ### Reader commands issue no Drain and no Sync -/

theorem rdAnswered_trace (n : Nat) (a : FillAnswer) (s : State) :
    ∃ r, (rdAnswered n a s).trace = s.trace ++ [.response r] :=
  (rdAnswered_actsOnReader n a s).imp fun _ h => congrArg State.trace (h s)

theorem execRd_addsNoDrainOrSync {n : Int} {s t : State} (h : execRd n s = .next t) : AddsNoDrainOrSync s t := by
  obtain ⟨-, rfl⟩ | ⟨-, -, rfl⟩ | ⟨-, -, -, rfl⟩ | ⟨-, -, -, a, e, -, rfl⟩ := execRd_cases h
  case inl => exact addsNoDrainOrSync_respond _ _
  case inr.inl => exact addsNoDrainOrSync_respond _ _
  case inr.inr.inl => exact addsNoDrainOrSync_respond _ _
  case inr.inr.inr =>
    obtain ⟨r, hr⟩ := rdAnswered_trace n.toNat a ({ s with inputs := e }.record (.fill s.reader.sid a))
    exact ⟨[.fill s.reader.sid a, .response r], by simp [hr], by simp, by simp⟩

theorem exec_reader_addsNoDrainOrSync {i : Instr} {s t : State} (hi : isReaderCommand i = true)
    (h : exec i s = .next t) : AddsNoDrainOrSync s t := by
  cases i with
  | rd n => exact execRd_addsNoDrainOrSync h
  | rbind b => cases h; exact addsNoDrainOrSync_respond _ _
  | rpoll => cases h; exact addsNoDrainOrSync_respond _ _
  | wr x n => cases hi
  | flush => cases hi
  | wbind b => cases hi
  | wpoll => cases hi

/-! ### Writer commands issue no Fill -/

theorem wrAnswered_trace (a : DrainAnswer) (s : State) : ∃ r, (wrAnswered a s).trace = s.trace ++ [.response r] :=
  (wrAnswered_actsOnWriter a s).imp fun _ h => congrArg State.trace (h s)

theorem flushSynced_trace (a : SyncAnswer) (s : State) : ∃ r, (flushSynced a s).trace = s.trace ++ [.response r] :=
  (flushSynced_actsOnWriter a s).imp fun _ h => congrArg State.trace (h s)

theorem execWr_addsNoFill {x : Word} {n : Int} {s t : State} (h : execWr x n s = .next t) : AddsNoFill s t := by
  obtain ⟨-, rfl⟩ | ⟨-, -, rfl⟩ | ⟨-, -, -, rfl⟩ | ⟨-, -, -, a, e, -, rfl⟩ := execWr_cases h
  case inl => exact addsNoFill_respond _ _
  case inr.inl => exact addsNoFill_respond _ _
  case inr.inr.inl => exact addsNoFill_respond _ _
  case inr.inr.inr =>
    obtain ⟨r, hr⟩ := wrAnswered_trace a ({ s with writer := wrOverflow x n.toNat s.writer, outputs := e }.record
      (.drain s.writer.sid (wrEmitted x n.toNat s.writer) a))
    exact ⟨[.drain s.writer.sid (wrEmitted x n.toNat s.writer) a, .response r], by simp [hr], by simp⟩

theorem flushSync_addsNoFill {s t : State} (h : flushSync s = .next t) : AddsNoFill s t := by
  obtain ⟨a, e, -, rfl⟩ := flushSync_cases h
  obtain ⟨r, hr⟩ := flushSynced_trace a ({ s with outputs := e }.record (.sync s.writer.sid a))
  exact ⟨[.sync s.writer.sid a, .response r], by simp [hr], by simp⟩

theorem execFlush_addsNoFill {s t : State} (h : execFlush s = .next t) : AddsNoFill s t := by
  obtain ⟨-, rfl⟩ | ⟨-, -, hy⟩ | ⟨-, -, a, e, -, ⟨c, k, -, rfl⟩ | ⟨-, hy⟩⟩ := execFlush_cases h
  case inl => exact addsNoFill_respond _ _
  case inr.inl => exact flushSync_addsNoFill (s := { s with writer := s.writer.emptied }) hy
  case inr.inr.inl =>
    exact ⟨[.drain s.writer.sid (flushBytes s.writer) a, .response (Latch.transport c).response], by simp, by simp⟩
  case inr.inr.inr =>
    obtain ⟨l, hl, hfill⟩ := flushSync_addsNoFill hy
    exact ⟨.drain s.writer.sid (flushBytes s.writer) a :: l, by simp [hl], by simp [hfill]⟩

theorem exec_writer_addsNoFill {i : Instr} {s t : State} (hi : isReaderCommand i = false) (h : exec i s = .next t) :
    AddsNoFill s t := by
  cases i with
  | wr x n => exact execWr_addsNoFill h
  | flush => exact execFlush_addsNoFill h
  | wbind b => cases h; exact addsNoFill_respond _ _
  | wpoll => cases h; exact addsNoFill_respond _ _
  | rd n => cases hi
  | rbind b => cases hi
  | rpoll => cases hi

/-! ## The latch stays (R26) -/

/-- The reader and its stream side are as before, and no Fill was issued. -/
def KeepsReader (s t : State) : Prop := t.reader = s.reader ∧ t.inputs = s.inputs ∧ AddsNoFill s t

/-- The writer and its stream side are as before, and no Drain and no Sync was issued. -/
def KeepsWriter (s t : State) : Prop := t.writer = s.writer ∧ t.outputs = s.outputs ∧ AddsNoDrainOrSync s t

theorem keepsReader_refl (s : State) : KeepsReader s s := ⟨rfl, rfl, [], by simp, by simp⟩

theorem keepsWriter_refl (s : State) : KeepsWriter s s := ⟨rfl, rfl, [], by simp, by simp, by simp⟩

theorem keepsReader_respond (s : State) (r : Response) : KeepsReader s (s.respond r) := ⟨rfl, rfl, addsNoFill_respond s r⟩

theorem keepsWriter_respond (s : State) (r : Response) : KeepsWriter s (s.respond r) :=
  ⟨rfl, rfl, addsNoDrainOrSync_respond s r⟩

/-- A latched reader answers everything but a rebind with a response and no more (60_exceptions.md R85). -/
theorem exec_reader_latched {i : Instr} {s t : State} (hi : isReaderCommand i = true) (hb : ∀ b, i ≠ .rbind b)
    (he : s.reader.err ≠ .none) (h : exec i s = .next t) : ∃ r, t = s.respond r := by
  cases i with
  | rd n =>
    obtain ⟨-, ht⟩ | ⟨-, -, ht⟩ | ⟨-, he', -⟩ | ⟨-, he', -⟩ := execRd_cases h
    case inl => exact ⟨_, ht⟩
    case inr.inl => exact ⟨_, ht⟩
    case inr.inr.inl => exact absurd he' he
    case inr.inr.inr => exact absurd he' he
  | rbind b => exact absurd rfl (hb b)
  | rpoll => cases h; exact ⟨_, rfl⟩
  | wr x n => cases hi
  | flush => cases hi
  | wbind b => cases hi
  | wpoll => cases hi

/-- The same for a latched writer. -/
theorem exec_writer_latched {i : Instr} {s t : State} (hi : isReaderCommand i = false) (hb : ∀ b, i ≠ .wbind b)
    (he : s.writer.err ≠ .none) (h : exec i s = .next t) : ∃ r, t = s.respond r := by
  cases i with
  | wr x n =>
    obtain ⟨-, ht⟩ | ⟨-, -, ht⟩ | ⟨-, he', -⟩ | ⟨-, he', -⟩ := execWr_cases h
    case inl => exact ⟨_, ht⟩
    case inr.inl => exact ⟨_, ht⟩
    case inr.inr.inl => exact absurd he' he
    case inr.inr.inr => exact absurd he' he
  | flush => exact ⟨_, (Host.Outcome.next.inj ((execFlush_latched he).symm.trans h)).symm⟩
  | wbind b => exact absurd rfl (hb b)
  | wpoll => cases h; exact ⟨_, rfl⟩
  | rd n => cases hi
  | rbind b => cases hi
  | rpoll => cases hi

theorem exec_keepsReader {i : Instr} {s t : State} (hb : ∀ b, i ≠ .rbind b) (he : s.reader.err ≠ .none)
    (h : exec i s = .next t) : KeepsReader s t := by
  cases hi : isReaderCommand i with
  | true =>
    obtain ⟨r, rfl⟩ := exec_reader_latched hi hb he h
    exact keepsReader_respond s r
  | false =>
    obtain ⟨-, hreader, hinputs⟩ := exec_writer_frame hi h
    exact ⟨hreader, hinputs, exec_writer_addsNoFill hi h⟩

theorem exec_keepsWriter {i : Instr} {s t : State} (hb : ∀ b, i ≠ .wbind b) (he : s.writer.err ≠ .none)
    (h : exec i s = .next t) : KeepsWriter s t := by
  cases hi : isReaderCommand i with
  | true =>
    obtain ⟨-, hwriter, houtputs⟩ := exec_reader_frame hi h
    exact ⟨hwriter, houtputs, exec_reader_addsNoDrainOrSync hi h⟩
  | false =>
    obtain ⟨r, rfl⟩ := exec_writer_latched hi hb he h
    exact keepsWriter_respond s r

/-- A step without a reset does nothing, executes a command, or answers an illegal word. -/
theorem step_cases_of_no_reset {s t : State} (h : step s = .next t) (hreset : ∀ rest, s.port ≠ .reset :: rest)
    (hcut : ∀ w l rest, s.port ≠ .cutByReset w l :: rest) :
    t = s ∨
    (∃ w rest i, s.port = .command w :: rest ∧ decode w = .ok i ∧ exec i { s with port := rest } = .next t) ∨
    ∃ rest, t = State.respond { s with port := rest } .illegalCommand := by
  obtain ⟨-, ht⟩ | hx | ⟨w, rest, e, -, -, ht⟩ | ⟨rest, hp, -⟩ | ⟨w, l, rest, hp, -⟩ := step_cases h
  case inl => exact .inl ht
  case inr.inl => exact .inr (.inl hx)
  case inr.inr.inl => exact .inr (.inr ⟨rest, ht⟩)
  case inr.inr.inr.inl => exact absurd hp (hreset rest)
  case inr.inr.inr.inr => exact absurd hp (hcut w l rest)

theorem step_keepsReader {s t : State} (h : step s = .next t) (hreset : ∀ rest, s.port ≠ .reset :: rest)
    (hcut : ∀ w l rest, s.port ≠ .cutByReset w l :: rest) (he : s.reader.err ≠ .none)
    (hb : ∀ w rest b, s.port = .command w :: rest → decode w ≠ .ok (.rbind b)) : KeepsReader s t := by
  obtain rfl | ⟨w, rest, i, hp, hd, hx⟩ | ⟨rest, rfl⟩ := step_cases_of_no_reset h hreset hcut
  · exact keepsReader_refl t
  · exact exec_keepsReader (s := { s with port := rest }) (fun b hi => hb w rest b hp (hi ▸ hd)) he hx
  · exact keepsReader_respond { s with port := rest } .illegalCommand

theorem step_keepsWriter {s t : State} (h : step s = .next t) (hreset : ∀ rest, s.port ≠ .reset :: rest)
    (hcut : ∀ w l rest, s.port ≠ .cutByReset w l :: rest) (he : s.writer.err ≠ .none)
    (hb : ∀ w rest b, s.port = .command w :: rest → decode w ≠ .ok (.wbind b)) : KeepsWriter s t := by
  obtain rfl | ⟨w, rest, i, hp, hd, hx⟩ | ⟨rest, rfl⟩ := step_cases_of_no_reset h hreset hcut
  · exact keepsWriter_refl t
  · exact exec_keepsWriter (s := { s with port := rest }) (fun b hi => hb w rest b hp (hi ▸ hd)) he hx
  · exact keepsWriter_respond { s with port := rest } .illegalCommand

end Sys2Proof.Machine

section

open Sys2Proof.Machine

/-- Settles O14: a command keeps the invariants of its own channel and does not touch the other; a reset establishes them anew. -/
theorem everyStepKeepsTheInvariants : Obligations.EveryStepKeepsTheInvariants := by
  unfold Obligations.EveryStepKeepsTheInvariants
  intro s t hinv h
  exact step_keeps_inv hinv h

/-- Settles O15: a latched channel's own commands only respond, and the other channel's issue no transaction of this one. -/
theorem latchStaysUntilRebindOrReset : Obligations.LatchStaysUntilRebindOrReset := by
  unfold Obligations.LatchStaysUntilRebindOrReset
  intro s t h hreset hcut
  constructor
  · intro he hb
    obtain ⟨hreader, hinputs, hadds⟩ := step_keepsReader h hreset hcut he hb
    exact ⟨hreader, hinputs, hadds.requests⟩
  · intro he hb
    obtain ⟨hwriter, houtputs, hadds⟩ := step_keepsWriter h hreset hcut he hb
    exact ⟨hwriter, houtputs, hadds.requests⟩

/-- Settles O18: the frame of a reader command and the frame of a writer command. -/
theorem commandsLeaveTheOtherChannelAlone : Obligations.CommandsLeaveTheOtherChannelAlone := by
  unfold Obligations.CommandsLeaveTheOtherChannelAlone
  intro i s t h
  cases hi : isReaderCommand i with
  | true =>
    obtain ⟨hport, hother⟩ := exec_reader_frame hi h
    exact ⟨hport, fun _ => hother, nofun⟩
  | false =>
    obtain ⟨hport, hother⟩ := exec_writer_frame hi h
    exact ⟨hport, nofun, fun _ => hother⟩

/-- Settles O19: the other half of the state may be exchanged under a command, so it completes, or stops, from both states alike. -/
theorem commandsDependOnTheirOwnChannelOnly : Obligations.CommandsDependOnTheirOwnChannelOnly := by
  unfold Obligations.CommandsDependOnTheirOwnChannelOnly
  intro i s s'
  exact ⟨fun hi hr hin => ⟨fun f => exec_reader_fault_of_agree hi hr hin, fun t => exec_reader_next_of_agree hi hr hin⟩,
    fun hi hw hout => ⟨fun f => exec_writer_fault_of_agree hi hw hout, fun t => exec_writer_next_of_agree hi hw hout⟩⟩

end

/-! SUPPORT. The statements of 20_memory.md: which stream a transaction touches, what an answered one leaves in it, and the events a
completed command adds to the trace. -/

namespace Sys2Proof.Machine

/-! ## A transaction touches the stream its handle names, and no other (R29) -/

theorem InputSide.sameButFor_set {e : InputSide} {h : Handle} {i : Nat} {st : InStream} (hs : e.stream h = some (i, st))
    (st' : InStream) : e.SameButFor h { e with streams := e.streams.set i st' } := by
  refine ⟨rfl, List.length_set, fun j hj => ?_, fun h' hother => stream_set_of_ne fun x => hother i st x hs, fun _ => rfl⟩
  have hne : i ≠ j := fun hij => hj st (hij ▸ hs)
  exact List.getElem?_set_ne hne

theorem OutputSide.sameButFor_set {e : OutputSide} {h : Handle} {i : Nat} {st : OutStream} (hs : e.stream h = some (i, st))
    (st' : OutStream) : e.SameButFor h { e with streams := e.streams.set i st' } := by
  refine ⟨rfl, List.length_set, fun j hj => ?_, fun h' hother => stream_set_of_ne fun x => hother i st x hs, fun _ => rfl⟩
  have hne : i ≠ j := fun hij => hj st (hij ▸ hs)
  exact List.getElem?_set_ne hne

/-- Only the count of free answers moves when the handle names no stream the model knows. -/
theorem InputSide.sameButFor_asked {e : InputSide} {h : Handle} (hs : e.stream h = none) (k : Nat) :
    e.SameButFor h { e with asked := k } :=
  ⟨rfl, rfl, fun _ _ => rfl, fun _ _ => rfl, fun hne => absurd hs hne⟩

theorem OutputSide.sameButFor_asked {e : OutputSide} {h : Handle} (hs : e.stream h = none) (k : Nat) :
    e.SameButFor h { e with asked := k } :=
  ⟨rfl, rfl, fun _ _ => rfl, fun _ _ => rfl, fun hne => absurd hs hne⟩

theorem OutputSide.sameButFor_refl (e : OutputSide) (h : Handle) : e.SameButFor h e :=
  ⟨rfl, rfl, fun _ _ => rfl, fun _ _ => rfl, fun _ => rfl⟩

/-! ### What an answered transaction does to its side -/

/-- An answered Fill: a free answer of an unknown stream, or an answer of the stream the handle names. -/
theorem InputSide.fill_cases {e e' : InputSide} {h : Handle} {a : FillAnswer} (hf : e.fill h = some (a, e')) :
    (e.stream h = none ∧ e' = { e with asked := e.asked + 1 }) ∨
    ∃ i st st', e.stream h = some (i, st) ∧ st.fill = some (a, st') ∧ e' = { e with streams := e.streams.set i st' } := by
  cases hs : e.stream h with
  | none =>
    simp only [InputSide.fill, hs, Option.some.injEq, Prod.mk.injEq] at hf
    exact .inl ⟨rfl, hf.2.symm⟩
  | some p =>
    obtain ⟨i, st⟩ := p
    rw [fill_of_stream hs, Option.map_eq_some_iff] at hf
    obtain ⟨⟨b, st'⟩, hst, hr⟩ := hf
    cases hr
    exact .inr ⟨i, st, st', rfl, hst, rfl⟩

theorem OutputSide.drain_cases {e e' : OutputSide} {h : Handle} {bytes : List Byte} {a : DrainAnswer}
    (hd : e.drain h bytes = some (a, e')) :
    (e.stream h = none ∧ e' = { e with asked := e.asked + 1 }) ∨
    ∃ i st st', e.stream h = some (i, st) ∧ st.drain bytes = some (a, st') ∧
      e' = { e with streams := e.streams.set i st' } := by
  cases hs : e.stream h with
  | none =>
    simp only [OutputSide.drain, hs, Option.some.injEq, Prod.mk.injEq] at hd
    exact .inl ⟨rfl, hd.2.symm⟩
  | some p =>
    obtain ⟨i, st⟩ := p
    rw [drain_of_stream bytes hs, Option.map_eq_some_iff] at hd
    obtain ⟨⟨b, st'⟩, hst, hr⟩ := hd
    cases hr
    exact .inr ⟨i, st, st', rfl, hst, rfl⟩

theorem OutputSide.sync_cases {e e' : OutputSide} {h : Handle} {a : SyncAnswer} (hy : e.sync h = some (a, e')) :
    (e.stream h = none ∧ e' = { e with asked := e.asked + 1 }) ∨
    ∃ i st st', e.stream h = some (i, st) ∧ st.sync = some (a, st') ∧ e' = { e with streams := e.streams.set i st' } := by
  cases hs : e.stream h with
  | none =>
    simp only [OutputSide.sync, hs, Option.some.injEq, Prod.mk.injEq] at hy
    exact .inl ⟨rfl, hy.2.symm⟩
  | some p =>
    obtain ⟨i, st⟩ := p
    rw [sync_of_stream hs, Option.map_eq_some_iff] at hy
    obtain ⟨⟨b, st'⟩, hst, hr⟩ := hy
    cases hr
    exact .inr ⟨i, st, st', rfl, hst, rfl⟩

theorem InputSide.fill_sameButFor {e e' : InputSide} {h : Handle} {a : FillAnswer} (hf : e.fill h = some (a, e')) :
    e.SameButFor h e' := by
  obtain ⟨hs, rfl⟩ | ⟨i, st, st', hs, -, rfl⟩ := fill_cases hf
  · exact sameButFor_asked hs _
  · exact sameButFor_set hs st'

theorem OutputSide.drain_sameButFor {e e' : OutputSide} {h : Handle} {bytes : List Byte} {a : DrainAnswer}
    (hd : e.drain h bytes = some (a, e')) : e.SameButFor h e' := by
  obtain ⟨hs, rfl⟩ | ⟨i, st, st', hs, -, rfl⟩ := drain_cases hd
  · exact sameButFor_asked hs _
  · exact sameButFor_set hs st'

theorem OutputSide.sync_sameButFor {e e' : OutputSide} {h : Handle} {a : SyncAnswer} (hy : e.sync h = some (a, e')) :
    e.SameButFor h e' := by
  obtain ⟨hs, rfl⟩ | ⟨i, st, st', hs, -, rfl⟩ := sync_cases hy
  · exact sameButFor_asked hs _
  · exact sameButFor_set hs st'

/-! ### What a transaction a reset has cut off does to its side (70_reset_and_hazards.md R96) -/

theorem InputSide.fillPerformed_sameButFor (e : InputSide) (h : Handle) : e.SameButFor h (e.fillPerformed h) := by
  cases hs : e.stream h with
  | none => simpa only [InputSide.fillPerformed, hs] using sameButFor_asked hs (e.asked + 1)
  | some p => exact fillPerformed_of_stream hs ▸ sameButFor_set hs _

theorem OutputSide.drainPerformed_sameButFor (e : OutputSide) (h : Handle) (bytes : List Byte) :
    e.SameButFor h (e.drainPerformed h bytes) := by
  cases hs : e.stream h with
  | none => simpa only [OutputSide.drainPerformed, hs] using sameButFor_refl e h
  | some p => exact drainPerformed_of_stream bytes hs ▸ sameButFor_set hs _

theorem OutputSide.syncPerformed_sameButFor (e : OutputSide) (h : Handle) : e.SameButFor h (e.syncPerformed h) := by
  cases hs : e.stream h with
  | none => simpa only [OutputSide.syncPerformed, hs] using sameButFor_refl e h
  | some p => exact syncPerformed_of_stream hs ▸ sameButFor_set hs _

/-! ## The reference input stream (R30) -/

/-- While it holds bytes, a stream without a script delivers the next eight of them and moves past these. -/
theorem InStream.fill_of_data {st : InStream} (hscript : st.script = []) (hpos : st.pos < st.data.length) :
    st.fill = some (⟨deliver (st.data.drop st.pos), .ok⟩,
      { st with pos := st.pos + (deliver (st.data.drop st.pos)).bytes.length }) := by
  simp [InStream.fill, hscript, hpos]

/-- Once its bytes are used up, it delivers none, answers its ending, and stays as it is. -/
theorem InStream.fill_at_end {st : InStream} (hscript : st.script = []) (hpos : st.data.length ≤ st.pos) :
    st.fill = some (⟨deliver [], st.ending.term⟩, st) := by
  simp [InStream.fill, hscript, Nat.not_lt.mpr hpos]

theorem deliver_bytes (l : List Byte) : (deliver l).bytes = l.take 8 := rfl

/-- Dropping as many bytes as a Fill delivers is dropping eight: where fewer are left, both drop them all. -/
theorem drop_deliver_length (l : List Byte) : l.drop (deliver l).bytes.length = l.drop 8 := by
  rw [deliver_bytes, List.length_take]
  obtain hl | hl := Nat.le_total 8 l.length
  · rw [Nat.min_eq_left hl]
  · rw [Nat.min_eq_right hl, List.drop_length, List.drop_eq_nil_of_le hl]

theorem InputSide.fill_of_answer {e : InputSide} {h : Handle} {i : Nat} {st st' : InStream} {a : FillAnswer}
    (hs : e.stream h = some (i, st)) (hst : st.fill = some (a, st')) :
    e.fill h = some (a, { e with streams := e.streams.set i st' }) := by
  rw [fill_of_stream hs, hst, Option.map_some]

/-- A reference stream with bytes left: the next eight, OK, and the rest stays. -/
theorem InputSide.fill_of_refersToUntil {e : InputSide} {h : Handle} {rest : List Byte} {ending : Ending}
    (href : e.RefersToUntil h rest ending) (hrest : rest ≠ []) :
    ∃ e', e.fill h = some (⟨deliver rest, .ok⟩, e') ∧ e'.RefersToUntil h (rest.drop 8) ending := by
  obtain ⟨i, st, hs, hscript, hend, -, rfl⟩ := href
  have hpos : st.pos < st.data.length := by simpa [List.drop_eq_nil_iff] using hrest
  have hle : st.pos + (deliver (st.data.drop st.pos)).bytes.length ≤ st.data.length := by
    rw [deliver_bytes, List.length_take, List.length_drop]; omega
  have hdrop : st.data.drop (st.pos + (deliver (st.data.drop st.pos)).bytes.length) = (st.data.drop st.pos).drop 8 :=
    List.drop_drop.symm.trans (drop_deliver_length _)
  exact ⟨_, fill_of_answer hs (InStream.fill_of_data hscript hpos), i, _, stream_set hs, hscript, hend, hle, hdrop⟩

/-- A reference stream that is used up: no byte and its ending. -/
theorem InputSide.fill_of_refersToUntil_nil {e : InputSide} {h : Handle} {ending : Ending}
    (href : e.RefersToUntil h [] ending) :
    ∃ e', e.fill h = some (⟨deliver [], ending.term⟩, e') ∧ e'.RefersToUntil h [] ending := by
  obtain ⟨i, st, hs, hscript, rfl, hpos, hdrop⟩ := href
  have hend : st.data.length ≤ st.pos := List.drop_eq_nil_iff.mp hdrop
  exact ⟨_, fill_of_answer hs (InStream.fill_at_end hscript hend), i, st, stream_set hs, hscript, rfl, hpos, hdrop⟩

/-! ## What an output stream holds after a Drain and after a Sync (R34, R35, R36) -/

theorem DrainAnswer.acceptedOf_prefix (a : DrainAnswer) (bytes : List Byte) : a.acceptedOf bytes <+: bytes := by
  cases a with
  | ok => exact List.prefix_refl bytes
  | err c k => exact List.take_prefix k bytes

theorem OutStream.drain_accepted {st st' : OutStream} {bytes : List Byte} {a : DrainAnswer}
    (hd : st.drain bytes = some (a, st')) :
    st'.accepted = st.accepted ++ a.acceptedOf bytes ∧ st'.synced = st.synced := by
  unfold OutStream.drain at hd
  split at hd <;> cases hd
  · exact ⟨rfl, rfl⟩
  · exact ⟨rfl, rfl⟩

theorem OutStream.sync_accepted {st st' : OutStream} {a : SyncAnswer} (hy : st.sync = some (a, st')) :
    st'.accepted = st.accepted ∧ st'.synced = st.syncedAfter a := by
  unfold OutStream.sync at hy
  split at hy <;> cases hy
  · exact ⟨rfl, rfl⟩
  · exact ⟨rfl, rfl⟩

theorem OutputSide.drain_stream {e e' : OutputSide} {h : Handle} {bytes : List Byte} {a : DrainAnswer} {i : Nat}
    {st : OutStream} (hs : e.stream h = some (i, st)) (hd : e.drain h bytes = some (a, e')) :
    ∃ st', e'.stream h = some (i, st') ∧ st'.accepted = st.accepted ++ a.acceptedOf bytes ∧ st'.synced = st.synced := by
  obtain ⟨hnone, -⟩ | ⟨j, x, st', hx, hst, rfl⟩ := drain_cases hd
  · cases hs.symm.trans hnone
  · cases hs.symm.trans hx
    exact ⟨st', stream_set hs, OutStream.drain_accepted hst⟩

theorem OutputSide.sync_stream {e e' : OutputSide} {h : Handle} {a : SyncAnswer} {i : Nat} {st : OutStream}
    (hs : e.stream h = some (i, st)) (hy : e.sync h = some (a, e')) :
    ∃ st', e'.stream h = some (i, st') ∧ st'.accepted = st.accepted ∧ st'.synced = st.syncedAfter a := by
  obtain ⟨hnone, -⟩ | ⟨j, x, st', hx, hst, rfl⟩ := sync_cases hy
  · cases hs.symm.trans hnone
  · cases hs.symm.trans hx
    exact ⟨st', stream_set hs, OutStream.sync_accepted hst⟩

/-- A failed Drain that lets through as many bytes as `p` has lets through `p` (U4). -/
theorem OutStream.drain_prefix {bytes p : List Byte} (hp : p <+: bytes) (c : ErrorCode) (st : OutStream) :
    ({ st with drains := [some (.err c p.length)] } : OutStream).drain bytes =
      some (.err c p.length, { st with drains := [], accepted := st.accepted ++ p }) := by
  have htake : bytes.take p.length = p := (List.prefix_iff_eq_take.mp hp).symm
  simp [OutStream.drain, DrainAnswer.acceptedOf, htake]

/-! ## FLUSH, from the answers of its Drain and its Sync (41_writer_backhaul.md R73 to R75) -/

/-- The padding of FLUSH is the only one that is shorter than a byte. -/
theorem padding_unique {cnt p : Nat} (hp : p < 8) (hmod : (cnt + p) % 8 = 0) : p = padding cnt := by
  unfold padding; omega

theorem eq_flushBytes {c : Channel} {p : Nat} {bytes : List Byte} (hp : p < 8) (hmod : (c.cnt + p) % 8 = 0)
    (hbits : bitsOfBytes bytes = c.bits ++ List.replicate p false) : bytes = flushBytes c := by
  rw [padding_unique hp hmod, ← flushBytes_bits] at hbits
  exact bitsOfBytes_injective hbits

theorem flushBytes_length (c : Channel) : (flushBytes c).length = (c.cnt + 7) / 8 := by
  rw [flushBytes, bytesBe_length, padding]; omega

/-- A failed Drain: the writer latches, and no Sync follows. -/
theorem execFlush_of_failed_drain {s : State} {c : ErrorCode} {k : Nat} {e : OutputSide} (he : s.writer.err = .none)
    (hc : s.writer.cnt ≠ 0) (hd : s.outputs.drain s.writer.sid (flushBytes s.writer) = some (.err c k, e)) :
    execFlush s = .next { s with
      writer := ⟨0#64, 0, .transport c, s.writer.sid⟩
      outputs := e
      trace := s.trace ++ [.drain s.writer.sid (flushBytes s.writer) (.err c k), .response ⟨.transport, c, 0#64⟩] } := by
  rw [execFlush_failed he hc hd]
  simp [State.failWriter, State.respond, State.record, Channel.latch, Channel.emptied, Latch.response, Latch.kind, Latch.code]

/-- A Drain that answers OK: the Sync decides. -/
theorem execFlush_of_drain {s : State} {e e' : OutputSide} {a : SyncAnswer} (he : s.writer.err = .none)
    (hc : s.writer.cnt ≠ 0) (hd : s.outputs.drain s.writer.sid (flushBytes s.writer) = some (.ok, e))
    (hy : e.sync s.writer.sid = some (a, e')) :
    execFlush s = .next (flushSynced a { s with
      writer := s.writer.emptied
      outputs := e'
      trace := s.trace ++ [.drain s.writer.sid (flushBytes s.writer) .ok, .sync s.writer.sid a] }) := by
  rw [execFlush_drained he hc hd, flushSync_answered hy]
  simp [State.record]

theorem Channel.emptied_eq {c : Channel} (he : c.err = .none) : c.emptied = ⟨0#64, 0, .none, c.sid⟩ := by
  rw [Channel.emptied, he]

/-! ## A FLUSH that answers OK (R36, R44) -/

/-- Only a clear latch is reported as OK (30_encoding.md R51). -/
theorem Latch.response_status_eq_ok_iff (e : Latch) : e.response.status = .ok ↔ e = .none := by
  cases e <;> simp [Latch.response, Latch.kind]

/-- A trace that ends with the report of a latch, and with an OK response, ends with the report of a clear latch. -/
theorem latch_eq_none_of_last_ok {l : List Event} {e : Latch} {r : Response} (hr : r.status = .ok)
    (hlast : (l ++ [Event.response e.response]).getLast? = some (.response r)) : e = .none := by
  simp only [List.getLast?_concat, Option.some.injEq, Event.response.injEq] at hlast
  exact e.response_status_eq_ok_iff.mp (hlast ▸ hr)

/-- The last response after the end of a FLUSH is OK only if the Sync answered OK. -/
theorem sync_ok_of_flushSynced_ok {a : SyncAnswer} {s : State} {r : Response} (hr : r.status = .ok)
    (hlast : (flushSynced a s).trace.getLast? = some (.response r)) : a = .ok := by
  cases a with
  | ok => rfl
  | err c => cases latch_eq_none_of_last_ok hr hlast

/-- A FLUSH that answers OK: an accumulator without bits and a Sync, or a Drain of the padded bits and a Sync, all OK. -/
theorem execFlush_ok_cases {s t : State} {r : Response} (h : execFlush s = .next t) (hr : r.status = .ok)
    (hlast : t.trace.getLast? = some (.response r)) :
    t.writer = s.writer.emptied ∧
    ((s.writer.cnt = 0 ∧ s.outputs.sync s.writer.sid = some (.ok, t.outputs) ∧
      newEvents s t = [.sync s.writer.sid .ok, .response (.success 0#64)]) ∨
    ∃ e, s.outputs.drain s.writer.sid (flushBytes s.writer) = some (.ok, e) ∧
      e.sync s.writer.sid = some (.ok, t.outputs) ∧
      newEvents s t = [.drain s.writer.sid (flushBytes s.writer) .ok, .sync s.writer.sid .ok, .response (.success 0#64)]) := by
  obtain ⟨he, rfl⟩ | ⟨-, hc, hy⟩ | ⟨-, -, a, e, hd, ⟨c, k, -, rfl⟩ | ⟨rfl, hy⟩⟩ := execFlush_cases h
  case inl => exact absurd (latch_eq_none_of_last_ok hr hlast) he
  case inr.inl =>
    obtain ⟨a, e, hsync, rfl⟩ := flushSync_cases hy
    obtain rfl := sync_ok_of_flushSynced_ok hr hlast
    exact ⟨rfl, .inl ⟨hc, hsync, newEvents_eq (by simp [flushSynced])⟩⟩
  case inr.inr.inl => cases latch_eq_none_of_last_ok hr hlast
  case inr.inr.inr =>
    obtain ⟨a, e', hsync, rfl⟩ := flushSync_cases hy
    obtain rfl := sync_ok_of_flushSynced_ok hr hlast
    exact ⟨rfl, .inr ⟨e, hd, hsync, newEvents_eq (by simp [flushSynced])⟩⟩

/-! ## The events of a completed command (R37, 30_encoding.md R50) -/

/-- What R50 says of the response to an instruction: a code with TRANSPORT only, a value with a successful read only, and never
ILLEGAL_COMMAND. -/
def Response.Answers (r : Response) (i : Instr) : Prop :=
  (r.status ≠ .transport → r.code = 0#32) ∧ (r.value ≠ 0#64 → r.status = .ok ∧ ∃ n, i = .rd n) ∧ r.status ≠ .illegalCommand

theorem Latch.response_answers (e : Latch) (i : Instr) : e.response.Answers i := by
  cases e <;> simp [Response.Answers, Latch.response, Latch.kind, Latch.code]

theorem Response.invalidCount_answers (i : Instr) : Response.invalidCount.Answers i := by
  simp [Response.Answers, Response.invalidCount]

theorem Response.success_zero_answers (i : Instr) : (Response.success 0#64).Answers i := by
  simp [Response.Answers, Response.success]

theorem Response.success_answers_rd (v : Word) (n : Int) : (Response.success v).Answers (.rd n) := by
  simp [Response.Answers, Response.success]

/-- From `s` to `t` the trace grows by the transactions `txs` and then by one response to `i`. -/
def Completes (i : Instr) (s t : State) (txs : List Event) : Prop :=
  responsesOf txs = [] ∧ ∃ r, t.trace = s.trace ++ txs ++ [.response r] ∧ r.Answers i

/-- The response alone. -/
theorem completes_nil {i : Instr} {s t : State} {r : Response} (ht : t.trace = s.trace ++ [.response r]) (hr : r.Answers i) :
    Completes i s t [] :=
  ⟨rfl, r, by simpa using ht, hr⟩

/-- A transaction before what a command does from then on. -/
theorem Completes.cons {i : Instr} {s u t : State} {e : Event} {txs : List Event} (hu : u.trace = s.trace ++ [e])
    (he : responsesOf [e] = []) (h : Completes i u t txs) : Completes i s t (e :: txs) := by
  obtain ⟨htxs, r, ht, hr⟩ := h
  have happ : responsesOf ([e] ++ txs) = responsesOf [e] ++ responsesOf txs := List.filterMap_append
  exact ⟨by rw [← List.singleton_append, happ, he, htxs, List.append_nil], r, by simp [ht, hu], hr⟩

/-- The response is no transaction. -/
theorem Completes.requestsOf_newEvents {i : Instr} {s t : State} {txs : List Event} (h : Completes i s t txs) :
    requestsOf (newEvents s t) = requestsOf txs := by
  obtain ⟨-, r, ht, -⟩ := h
  rw [newEvents_eq (ht.trans (List.append_assoc _ _ _))]
  exact List.filterMap_append.trans (List.append_nil _)

/-! ### RD: one Fill exactly on the slow path -/

theorem rdAnswered_completes (n : Int) (k : Nat) (a : FillAnswer) (s : State) :
    Completes (.rd n) s (rdAnswered k a s) [] := by
  obtain ⟨c, -, h⟩ | ⟨-, -, h⟩ | ⟨-, -, h⟩ := rdAnswered_cases k a s <;> rw [h]
  case inl => exact completes_nil rfl (Latch.response_answers _ _)
  case inr.inl => exact completes_nil rfl (Latch.response_answers _ _)
  case inr.inr => exact completes_nil rfl (Response.success_answers_rd _ n)

theorem execRd_completes {n : Int} {s t : State} (h : execRd n s = .next t) :
    ∃ txs, Completes (.rd n) s t txs ∧ requestsOf txs =
      if 0 ≤ n ∧ n ≤ 64 ∧ s.reader.err = .none ∧ s.reader.cnt < n then [.fill s.reader.sid] else [] := by
  obtain ⟨hc, rfl⟩ | ⟨-, he, rfl⟩ | ⟨-, -, hn, rfl⟩ | ⟨hc, he, hn, a, e, -, rfl⟩ := execRd_cases h
  case inl =>
    have hn := countLegal_eq_false_iff.mp hc
    exact ⟨[], completes_nil rfl (Response.invalidCount_answers _), (if_neg (by omega)).symm⟩
  case inr.inl =>
    exact ⟨[], completes_nil rfl (Latch.response_answers _ _), (if_neg fun ⟨_, _, hnone, _⟩ => he hnone).symm⟩
  case inr.inr.inl =>
    exact ⟨[], completes_nil rfl (Response.success_answers_rd _ n), (if_neg (by omega)).symm⟩
  case inr.inr.inr =>
    obtain ⟨h0, h64⟩ := countLegal_iff.mp hc
    exact ⟨[.fill s.reader.sid a], .cons rfl rfl (rdAnswered_completes n n.toNat a _),
      (if_pos ⟨h0, h64, he, by omega⟩).symm⟩

/-! ### WR: one Drain of 8 bytes exactly when the total reaches 64 -/

theorem wrAnswered_completes (i : Instr) (a : DrainAnswer) (s : State) : Completes i s (wrAnswered a s) [] := by
  cases a with
  | ok => exact completes_nil rfl (Response.success_zero_answers i)
  | err c k => exact completes_nil rfl (Latch.response_answers (.transport c) i)

theorem execWr_completes {x : Word} {n : Int} {s t : State} (h : execWr x n s = .next t) :
    ∃ txs, Completes (.wr x n) s t txs ∧ requestsOf txs =
      if 0 ≤ n ∧ n ≤ 64 ∧ s.writer.err = .none ∧ 64 ≤ s.writer.cnt + n then
        [.drain s.writer.sid (wrEmitted x n.toNat s.writer)] else [] := by
  obtain ⟨hc, rfl⟩ | ⟨-, he, rfl⟩ | ⟨-, -, hn, rfl⟩ | ⟨hc, he, hn, a, e, -, rfl⟩ := execWr_cases h
  case inl =>
    have hn := countLegal_eq_false_iff.mp hc
    exact ⟨[], completes_nil rfl (Response.invalidCount_answers _), (if_neg (by omega)).symm⟩
  case inr.inl =>
    exact ⟨[], completes_nil rfl (Latch.response_answers _ _), (if_neg fun ⟨_, _, hnone, _⟩ => he hnone).symm⟩
  case inr.inr.inl =>
    exact ⟨[], completes_nil rfl (Response.success_zero_answers _), (if_neg (by omega)).symm⟩
  case inr.inr.inr =>
    obtain ⟨h0, h64⟩ := countLegal_iff.mp hc
    exact ⟨[.drain s.writer.sid (wrEmitted x n.toNat s.writer) a], .cons rfl rfl (wrAnswered_completes _ a _),
      (if_pos ⟨h0, h64, he, by omega⟩).symm⟩

theorem wrEmitted_length (x : Word) (n : Nat) (c : Channel) : (wrEmitted x n c).length = 8 := bytesBe_length _ 64

/-! ### FLUSH: nothing, a Sync, a Drain, or both -/

theorem flushSynced_completes (i : Instr) (a : SyncAnswer) (s : State) : Completes i s (flushSynced a s) [] := by
  cases a with
  | ok => exact completes_nil rfl (Response.success_zero_answers i)
  | err c => exact completes_nil rfl (Latch.response_answers (.transport c) i)

theorem flushSync_completes {s t : State} (h : flushSync s = .next t) :
    ∃ a, Completes .flush s t [.sync s.writer.sid a] := by
  obtain ⟨a, e, -, rfl⟩ := flushSync_cases h
  exact ⟨a, .cons rfl rfl (flushSynced_completes .flush a _)⟩

theorem execFlush_completes {s t : State} (h : execFlush s = .next t) :
    (s.writer.err ≠ .none ∧ Completes .flush s t []) ∨
    (s.writer.err = .none ∧ s.writer.cnt = 0 ∧ ∃ a, Completes .flush s t [.sync s.writer.sid a]) ∨
    (s.writer.err = .none ∧ s.writer.cnt ≠ 0 ∧ ∃ a e,
      s.outputs.drain s.writer.sid (flushBytes s.writer) = some (a, e) ∧
      ((a ≠ .ok ∧ Completes .flush s t [.drain s.writer.sid (flushBytes s.writer) a]) ∨
       (a = .ok ∧ ∃ b, Completes .flush s t [.drain s.writer.sid (flushBytes s.writer) a, .sync s.writer.sid b]))) := by
  obtain ⟨he, rfl⟩ | ⟨he, hc, hy⟩ | ⟨he, hc, a, e, hd, ⟨c, k, rfl, rfl⟩ | ⟨rfl, hy⟩⟩ := execFlush_cases h
  case inl => exact .inl ⟨he, completes_nil rfl (Latch.response_answers _ _)⟩
  case inr.inl => exact .inr (.inl ⟨he, hc, flushSync_completes (s := { s with writer := s.writer.emptied }) hy⟩)
  case inr.inr.inl =>
    exact .inr (.inr ⟨he, hc, _, e, hd,
      .inl ⟨nofun, .cons rfl rfl (completes_nil rfl (Latch.response_answers (.transport c) .flush))⟩⟩)
  case inr.inr.inr =>
    obtain ⟨b, hb⟩ := flushSync_completes hy
    exact .inr (.inr ⟨he, hc, _, e, hd, .inr ⟨rfl, b, .cons rfl rfl hb⟩⟩)

/-! ### Every command, and the steps without one -/

/-- Polls and binds respond and do no more. -/
theorem exec_completes_nil {i : Instr} {s t : State} (hi : i = .rpoll ∨ i = .wpoll ∨ (∃ h, i = .rbind h) ∨ ∃ h, i = .wbind h)
    (h : exec i s = .next t) : Completes i s t [] := by
  obtain rfl | rfl | ⟨b, rfl⟩ | ⟨b, rfl⟩ := hi <;> cases h
  · exact completes_nil rfl (Latch.response_answers _ _)
  · exact completes_nil rfl (Latch.response_answers _ _)
  · exact completes_nil rfl (Response.success_zero_answers _)
  · exact completes_nil rfl (Response.success_zero_answers _)

theorem exec_completes {i : Instr} {s t : State} (h : exec i s = .next t) : ∃ txs, Completes i s t txs := by
  cases i with
  | rd n => exact (execRd_completes h).imp fun _ => And.left
  | wr x n => exact (execWr_completes h).imp fun _ => And.left
  | flush =>
    obtain ⟨-, hx⟩ | ⟨-, -, a, hx⟩ | ⟨-, -, a, e, -, ⟨-, hx⟩ | ⟨-, b, hx⟩⟩ := execFlush_completes h
    case inl => exact ⟨_, hx⟩
    case inr.inl => exact ⟨_, hx⟩
    case inr.inr.inl => exact ⟨_, hx⟩
    case inr.inr.inr => exact ⟨_, hx⟩
  | rbind b => exact ⟨[], exec_completes_nil (.inr (.inr (.inl ⟨b, rfl⟩))) h⟩
  | wbind b => exact ⟨[], exec_completes_nil (.inr (.inr (.inr ⟨b, rfl⟩))) h⟩
  | rpoll => exact ⟨[], exec_completes_nil (.inl rfl) h⟩
  | wpoll => exact ⟨[], exec_completes_nil (.inr (.inl rfl)) h⟩

/-- A hardware reset adds its own event, an illegal word its response: no transaction (R98, 60_exceptions.md R83). -/
theorem step_requests_nil {s t : State} (h : step s = .next t)
    (hp : (∃ rest, s.port = .reset :: rest) ∨ ∃ w rest e, s.port = .command w :: rest ∧ decode w = .error e) :
    requestsOf (newEvents s t) = [] := by
  obtain ⟨rest, hp⟩ | ⟨w, rest, e, hp, hd⟩ := hp
  · simp only [step, State.fetch_of_port hp, Host.Outcome.next.injEq] at h
    rw [newEvents_eq (l := [.reset]) (h ▸ rfl)]
    rfl
  · simp only [step, State.fetch_of_port hp, hd, Host.Outcome.next.injEq] at h
    rw [newEvents_eq (l := [.response .illegalCommand]) (h ▸ rfl)]
    rfl

end Sys2Proof.Machine

section

open Sys2Proof.Machine

/-- Settles O46: a known stream changes at its own place only; an unknown one costs at most a free answer. -/
theorem transactionsLeaveOtherStreamsAlone : Obligations.TransactionsLeaveOtherStreamsAlone := by
  unfold Obligations.TransactionsLeaveOtherStreamsAlone
  exact ⟨fun _ _ _ _ hf => InputSide.fill_sameButFor hf, fun _ _ _ _ _ hd => OutputSide.drain_sameButFor hd,
    fun _ _ _ _ hy => OutputSide.sync_sameButFor hy, fun e h => e.fillPerformed_sameButFor h,
    fun e h bytes => ⟨e.drainPerformed_sameButFor h bytes, e.syncPerformed_sameButFor h⟩⟩

/-- Settles O39: the stream either holds bytes or is used up. -/
theorem referenceInputDeliversUpToEight : Obligations.ReferenceInputDeliversUpToEight := by
  unfold Obligations.ReferenceInputDeliversUpToEight
  intro e h rest ending href
  by_cases hrest : rest = []
  · subst hrest
    obtain ⟨e', hf, href'⟩ := InputSide.fill_of_refersToUntil_nil href
    exact ⟨_, e', hf, rfl, fun hne => absurd rfl hne, fun _ hend => congrArg Ending.term hend,
      fun _ _ hend => congrArg Ending.term hend, href', InputSide.fill_sameButFor hf⟩
  · obtain ⟨e', hf, href'⟩ := InputSide.fill_of_refersToUntil href hrest
    exact ⟨_, e', hf, deliver_bytes rest, fun _ => rfl, fun hnil => absurd hnil hrest, fun _ hnil => absurd hnil hrest,
      href', InputSide.fill_sameButFor hf⟩

/-- Settles O41: what is appended is what the answer lets through; conversely a failed Drain may let through any number of bytes. -/
theorem drainAppendsAPrefix : Obligations.DrainAppendsAPrefix := by
  unfold Obligations.DrainAppendsAPrefix
  refine ⟨?_, fun bytes p c st hp => ⟨p.length, OutStream.drain_prefix hp c st⟩⟩
  intro e e' h bytes a i st hs hd
  obtain ⟨st', hs', hacc, hsynced⟩ := OutputSide.drain_stream hs hd
  exact ⟨st', a.acceptedOf bytes, hs', hacc, a.acceptedOf_prefix bytes, fun ha => ha ▸ rfl, hsynced,
    OutputSide.drain_sameButFor hd⟩

/-- Settles O36: bytes with these bits are those FLUSH hands over, and the two answers choose the path. -/
theorem flushPadsDrainsAndSyncs : Obligations.FlushPadsDrainsAndSyncs := by
  unfold Obligations.FlushPadsDrainsAndSyncs
  intro s p bytes _ he hc hp hmod hbits
  obtain rfl := eq_flushBytes hp hmod hbits
  refine ⟨fun e e' hd hy => ?_, fun c k e hd => execFlush_of_failed_drain he hc hd, fun c e e' hd hy => ?_⟩
  · refine (execFlush_of_drain he hc hd hy).trans ?_
    simp [flushSynced, State.respond, State.record, Channel.emptied_eq he, Response.success]
  · refine (execFlush_of_drain he hc hd hy).trans ?_
    simp [flushSynced, State.failWriter, State.respond, State.record, Channel.latch, Latch.response, Latch.kind, Latch.code]


/-- Settles O16: the events of each command, path by path, with the response of R50 at their end. -/
theorem everyCommandGivesExactlyOneResponse : Obligations.EveryCommandGivesExactlyOneResponse := by
  unfold Obligations.EveryCommandGivesExactlyOneResponse
  intro i s t h
  obtain ⟨txs, htxs, r, ht, hr⟩ := exec_completes h
  exact ⟨txs, r, ht, htxs, hr⟩

/-- Settles O17: the transactions among the same events; the bytes are those the model hands over, and only their number counts. -/
theorem commandsIssueTheTransactionsOfTheTable : Obligations.CommandsIssueTheTransactionsOfTheTable := by
  unfold Obligations.CommandsIssueTheTransactionsOfTheTable
  refine ⟨fun n s t h => ?_, fun x n s t h => ?_, fun s t h => ?_,
    fun i s t hi h => (exec_completes_nil hi h).requestsOf_newEvents, fun s t h hp => step_requests_nil h hp⟩
  · obtain ⟨txs, hx, hreq⟩ := execRd_completes h
    exact hx.requestsOf_newEvents.trans hreq
  · obtain ⟨txs, hx, hreq⟩ := execWr_completes h
    exact ⟨_, wrEmitted_length x n.toNat s.writer, hx.requestsOf_newEvents.trans hreq⟩
  · obtain ⟨he, hx⟩ | ⟨he, hc, a, hx⟩ | ⟨he, hc, a, e, hd, hx⟩ := execFlush_completes h
    · exact ⟨fun _ => hx.requestsOf_newEvents, fun hnone => absurd hnone he, fun hnone => absurd hnone he⟩
    · exact ⟨fun hne => absurd he hne, fun _ _ => hx.requestsOf_newEvents, fun _ hne => absurd hc hne⟩
    · refine ⟨fun hne => absurd he hne, fun _ hz => absurd hz hc, fun _ _ => ⟨_, a, e, flushBytes_length _, hd, ?_⟩⟩
      obtain ⟨ha, hx⟩ | ⟨ha, b, hx⟩ := hx
      · exact hx.requestsOf_newEvents.trans (if_neg ha).symm
      · exact hx.requestsOf_newEvents.trans (if_pos ha).symm

/-- Settles O42: FLUSH answers OK only after a Sync that answers OK, and its one Drain, if any, took all its bytes. -/
theorem flushAnsweredOkHasSyncedEverything : Obligations.FlushAnsweredOkHasSyncedEverything := by
  unfold Obligations.FlushAnsweredOkHasSyncedEverything
  intro s t i st _ hs h hlast
  obtain ⟨hw, ⟨hc, hy, hnew⟩ | ⟨e, hd, hy, hnew⟩⟩ := execFlush_ok_cases h rfl hlast
  all_goals rw [hnew]
  · obtain ⟨st', hs', hacc, hsynced⟩ := OutputSide.sync_stream hs hy
    refine ⟨st', hs', hsynced.trans (congrArg _ hacc).symm, hacc.trans (List.append_nil _).symm, ?_, hw ▸ rfl⟩
    simp [Channel.bits, hc]
  · obtain ⟨st₁, hs₁, hacc₁, -⟩ := OutputSide.drain_stream hs hd
    obtain ⟨st', hs', hacc, hsynced⟩ := OutputSide.sync_stream hs₁ hy
    have hbytes : drainedBytes [.drain s.writer.sid (flushBytes s.writer) .ok, .sync s.writer.sid .ok,
        .response (.success 0#64)] = flushBytes s.writer := List.append_nil _
    rw [hbytes]
    refine ⟨st', hs', hsynced.trans (congrArg _ hacc).symm, hacc.trans hacc₁, ?_, hw ▸ rfl⟩
    exact flushBytes_bits s.writer ▸ List.prefix_append _ _

end

/-! SUPPORT. The statements of 30_encoding.md: words and their fields, and the lines the assembler reads. -/

namespace Sys2Proof

/-! ## The fields of a command word (R49) -/

theorem fields_append (w : CmdWord) :
    CmdWord.op w ++ CmdWord.rsv w ++ CmdWord.count w ++ CmdWord.value w = w := by
  unfold CmdWord.op CmdWord.rsv CmdWord.count CmdWord.value
  rw [BitVec.extractLsb'_append_extractLsb'_eq_extractLsb' (show 76 = 72 + 4 from rfl),
    BitVec.extractLsb'_append_extractLsb'_eq_extractLsb' (show 72 = 64 + 8 from rfl),
    BitVec.extractLsb'_append_extractLsb'_eq_extractLsb' (show 64 = 0 + 64 from rfl)]
  exact BitVec.extractLsb'_eq_self

theorem packCommand_fields {w : CmdWord} (hr : CmdWord.rsv w = 0#4) :
    packCommand (CmdWord.op w) (CmdWord.count w) (CmdWord.value w) = w := by
  rw [packCommand, ← hr, fields_append]

/-! ## Decoding (R52, R56) -/

/-- The seven rows of the opcode map. -/
theorem decode_packCommand (c : BitVec 8) (v : Word) :
    decode (packCommand 0x1#4 c v) = .ok (.rd c.toInt) ∧
    decode (packCommand 0x2#4 c v) = .ok (.wr v c.toInt) ∧
    decode (packCommand 0x3#4 c v) = .ok .flush ∧
    decode (packCommand 0x4#4 c v) = .ok (.rbind v) ∧
    decode (packCommand 0x5#4 c v) = .ok (.wbind v) ∧
    decode (packCommand 0x6#4 c v) = .ok .rpoll ∧
    decode (packCommand 0x7#4 c v) = .ok .wpoll := by
  simp [decode, rsv_packCommand, op_packCommand, count_packCommand, value_packCommand, sint8_eq_toInt]

/-- A count that fits its field is what the decoder's two's complement reading gives back. -/
theorem toInt_countField {n : Int} (h : countFits n = true) : (countField n).toInt = n := by
  rw [← sint8_eq_toInt, sint8_countField h]

theorem decode_encode {i : Instr} (h : i.wellFormed = true) : decode (encode i) = .ok i := by
  cases i with
  | rd n => simp [encode, decode_packCommand, toInt_countField h]
  | wr x n => simp [encode, decode_packCommand, toInt_countField h]
  | flush => simp [encode, decode_packCommand]
  | rbind b => simp [encode, decode_packCommand]
  | wbind b => simp [encode, decode_packCommand]
  | rpoll => simp [encode, decode_packCommand]
  | wpoll => simp [encode, decode_packCommand]

/-- The two tests of `decode` are those of R56: the reserved field, and an opcode outside the map. -/
theorem decode_error_iff (w : CmdWord) : (∃ e, decode w = .error e) ↔
    (CmdWord.op w = 0#4 ∨ 8 ≤ (CmdWord.op w).toNat ∨ CmdWord.rsv w ≠ 0#4) := by
  by_cases hr : CmdWord.rsv w = 0#4
  · have hop : CmdWord.op w = 0#4 ↔ (CmdWord.op w).toNat = 0 := BitVec.toNat_eq
    simp only [decode, hr, hop, ne_eq, not_true_eq_false, if_false, or_false]
    split
    case h_8 => simp only [imp_false] at *; simp; omega
    all_goals simp; omega
  · simp [decode, hr]

end Sys2Proof

namespace Sys2Proof.Machine

/-! ## The response word (R50, R51) -/

theorem Response.word_fields (r : Response) : r.word.extractLsb' 96 3 = r.status.number ∧
    r.word.extractLsb' 64 32 = r.code ∧ r.word.extractLsb' 0 64 = r.value := by
  unfold Response.word
  refine ⟨?_, ?_, BitVec.extractLsb'_append_eq_right⟩
  · rw [BitVec.extractLsb'_append_eq_of_le (by decide)]
    exact BitVec.extractLsb'_append_eq_left
  · rw [BitVec.extractLsb'_append_eq_of_le le_rfl]
    exact BitVec.extractLsb'_append_eq_right

theorem Status.number_mem (e : Status) : e.number ∈ [0#3, 1#3, 2#3, 3#3, 7#3] := by cases e <;> decide

/-! ## Zero counts (R57): shifts and masks of no bits -/

theorem Channel.keepLow_self {c : Channel} (h : c.buf.toNat < 2 ^ c.cnt) : c.keepLow c.buf.toNat c.cnt = c := by
  have hbuf : toWord (c.buf.toNat &&& mask c.cnt) = c.buf := by
    rw [mask, Nat.and_two_pow_sub_one_of_lt_two_pow h]
    exact BitVec.ofNat_toNat 64 c.buf
  simp [Channel.keepLow, hbuf]

theorem rdFast_zero {s : State} (h : s.reader.buf.toNat < 2 ^ s.reader.cnt) :
    rdFast 0 s = s.respond (.success 0#64) := by
  have hv : s.reader.buf.toNat >>> s.reader.cnt = 0 := by
    rw [Nat.shiftRight_eq_div_pow, Nat.div_eq_of_lt h]
  simp [rdFast, Channel.keepLow_self h, hv, toWord]

theorem wrCombined_zero (x : Word) (c : Channel) : wrCombined x 0 c = c.buf.toNat := by
  simp [wrCombined, maskedOperand, mask]

theorem wrAppend_zero (x : Word) (s : State) : wrAppend x 0 s = s.respond (.success 0#64) := by
  simp [wrAppend, wrCombined_zero, toWord]

/-! ## What the assembler accepts is well formed (R59) -/

theorem countFits_iff {n : Int} : countFits n = true ↔ -128 ≤ n ∧ n ≤ 127 := decide_eq_true_iff

theorem countFits_of_count_eq_ok {l : List Char} {n : Int} (h : Asm.count l = .ok n) : countFits n = true := by
  unfold Asm.count at h
  split at h
  · cases h
  · split at h
    case isTrue hfits => cases h; exact hfits
    case isFalse => cases h

theorem exceptMap_eq_ok_iff {ε α β : Type} {f : α → β} {x : Except ε α} {b : β} :
    x.map f = .ok b ↔ ∃ a, x = .ok a ∧ f a = b := by
  cases x <;> simp [Except.map]

/-- An instruction built from one operand is well formed when it is so for every operand the assembler reads. -/
theorem wellFormed_of_map_eq_ok {α : Type} {f : α → Instr} {x : Except AsmError α} {i : Instr} (h : x.map f = .ok i)
    (hf : ∀ a, x = .ok a → (f a).wellFormed = true) : i.wellFormed = true := by
  obtain ⟨a, ha, rfl⟩ := exceptMap_eq_ok_iff.mp h
  exact hf a ha

theorem instruction_wellFormed {name : List Char} {ops : List (List Char)} {i : Instr}
    (h : Asm.instruction name ops = .ok i) : i.wellFormed = true := by
  unfold Asm.instruction at h
  split_ifs at h with hrd hwr hrbind hwbind
  · split at h
    · exact wellFormed_of_map_eq_ok h fun _ => countFits_of_count_eq_ok
    · cases h
  · split at h
    next x n =>
      cases hx : Asm.word x with
      | error e => simp [hx, Except.bind] at h
      | ok v =>
        rw [hx] at h
        exact wellFormed_of_map_eq_ok h fun _ => countFits_of_count_eq_ok
    next => cases h
  · split at h
    · exact wellFormed_of_map_eq_ok h fun _ _ => rfl
    · cases h
  · split at h
    · exact wellFormed_of_map_eq_ok h fun _ _ => rfl
    · cases h
  all_goals cases h; rfl

theorem exists_instruction_of_commandOf_eq_ok {l : List Char} {i : Instr} (h : Asm.commandOf l = .ok i) :
    ∃ name ops, Asm.instruction name ops = .ok i := by
  unfold Asm.commandOf at h
  dsimp only at h
  split at h
  · split at h
    · exact ⟨_, _, h⟩
    · cases h
  · split at h
    · exact ⟨_, _, h⟩
    · split at h
      · exact ⟨_, _, h⟩
      · cases h

theorem exists_commandOf_of_parseLine_eq_some {line : List Char} {i : Instr} (h : parseLine line = .ok (some i)) :
    ∃ text, Asm.commandOf text = .ok i := by
  unfold parseLine at h
  dsimp only at h
  split at h
  · cases h
  · obtain ⟨j, hj, hji⟩ := exceptMap_eq_ok_iff.mp h
    cases hji
    exact ⟨_, hj⟩

/-! ## Operand text: what stands between the commas (R59) -/

/-- A character that separates nothing and starts no comment. -/
abbrev IsOperandChar (c : Char) : Prop := Asm.isBlank c = false ∧ c ≠ ',' ∧ c ≠ ';'

/-- A non-empty text without blanks, commas and comments. -/
def IsOperandText (l : List Char) : Prop := l ≠ [] ∧ ∀ c ∈ l, IsOperandChar c

theorem isOperandText_cons {a : Char} {l : List Char} (ha : IsOperandChar a) (h : IsOperandText l) : IsOperandText (a :: l) :=
  ⟨List.cons_ne_nil a l, List.forall_mem_cons.mpr ⟨ha, h.2⟩⟩

theorem IsOperandText.exists_last {l : List Char} (h : IsOperandText l) :
    ∃ b, l.getLast? = some b ∧ Asm.isBlank b = false :=
  ⟨l.getLast h.1, List.getLast?_eq_some_getLast h.1, (h.2 _ (List.getLast_mem h.1)).1⟩

theorem IsOperandText.trim_eq {l : List Char} (h : IsOperandText l) : Asm.trim l = l := by
  obtain ⟨b, hb, hblank⟩ := h.exists_last
  exact trim_eq_self (List.head?_eq_some_head h.1) (h.2 _ (List.head_mem h.1)).1 hb hblank

theorem IsOperandText.splitCommas_eq {l : List Char} (h : IsOperandText l) : Asm.splitCommas l = [l] :=
  splitCommas_eq_singleton fun c hc => (h.2 c hc).2.1

theorem trim_space_cons (l : List Char) : Asm.trim (' ' :: l) = Asm.trim l := rfl

theorem splitCommas_ne_nil (l : List Char) : Asm.splitCommas l ≠ [] := by
  cases l with
  | nil => simp [Asm.splitCommas]
  | cons c l =>
    unfold Asm.splitCommas
    split
    · simp
    · split <;> simp

theorem operands_space_cons (l : List Char) : Asm.operands (' ' :: l) = Asm.operands l := by
  obtain ⟨p, ps, hp⟩ := List.exists_cons_of_ne_nil (splitCommas_ne_nil l)
  have hs : Asm.splitCommas (' ' :: l) = (' ' :: p) :: ps := by simp [Asm.splitCommas, hp]
  simp [Asm.operands, hs, hp, trim_space_cons]

/-- The text reads as the operands `ops`, does not end in a blank and holds no comment. -/
structure ReadsAs (text : List Char) (ops : List (List Char)) : Prop where
  operands : Asm.operands text = ops
  last : ∃ b, text.getLast? = some b ∧ Asm.isBlank b = false
  noComment : ∀ c ∈ text, c ≠ ';'

theorem readsAs_one {c : List Char} (h : IsOperandText c) : ReadsAs c [c] where
  operands := by
    rw [Asm.operands, h.trim_eq, if_neg h.1, h.splitCommas_eq, List.map_singleton, h.trim_eq]
  last := h.exists_last
  noComment a ha := (h.2 a ha).2.2

theorem readsAs_two {x c : List Char} (hx : IsOperandText x) (hc : IsOperandText c) :
    ReadsAs (x ++ ',' :: ' ' :: c) [x, c] := by
  obtain ⟨b, hb, hblank⟩ := hc.exists_last
  have hlast : (x ++ ',' :: ' ' :: c).getLast? = some b := by simp [List.getLast?_cons, hb]
  refine ⟨?_, ⟨b, hlast, hblank⟩, fun a ha => ?_⟩
  · have ht : Asm.trim (x ++ ',' :: ' ' :: c) = x ++ ',' :: ' ' :: c :=
      trim_eq_self (by simp [List.head?_eq_some_head hx.1]) (hx.2 _ (List.head_mem hx.1)).1 hlast hblank
    have hs : Asm.splitCommas (' ' :: c) = [' ' :: c] :=
      splitCommas_eq_singleton (by simpa using fun a ha => (hc.2 a ha).2.1)
    rw [Asm.operands, ht, if_neg (by simp), splitCommas_append_comma fun a ha => (hx.2 a ha).2.1, hs]
    simp [hx.trim_eq, hc.trim_eq, trim_space_cons]
  · simp only [List.mem_append, List.mem_cons] at ha
    obtain ha | rfl | rfl | ha := ha
    · exact (hx.2 a ha).2.2
    · decide
    · decide
    · exact (hc.2 a ha).2.2

/-! ## Lines: a mnemonic with its operands, or a call (R59, R60) -/

theorem not_blank_of_isLetter {c : Char} (h : Asm.isLetter c = true) : Asm.isBlank c = false := by
  cases hb : Asm.isBlank c with
  | false => rfl
  | true =>
    obtain rfl | rfl : c = ' ' ∨ c = '\t' := by simpa [Asm.isBlank] using hb
    all_goals simp [Asm.isLetter] at h

theorem ne_semicolon_of_isLetter {c : Char} (h : Asm.isLetter c = true) : c ≠ ';' := by
  rintro rfl
  simp [Asm.isLetter] at h

/-- A non-empty name of letters. -/
abbrev IsName (name : List Char) : Prop := name ≠ [] ∧ name.all Asm.isLetter = true

/-- A line splits after its name, where the letters end. -/
theorem IsName.takeWhile_and_dropWhile {name : List Char} (hname : IsName name) {a : Char} (ha : Asm.isLetter a = false)
    (rest : List Char) :
    (name ++ a :: rest).takeWhile Asm.isLetter = name ∧ (name ++ a :: rest).dropWhile Asm.isLetter = a :: rest := by
  have hletters := List.all_eq_true.mp hname.2
  rw [List.takeWhile_append_of_pos hletters, List.dropWhile_append_of_pos hletters]
  simp [ha]

theorem parseLine_of_name {name rest : List Char} {a b : Char} (hname : IsName name) (hs : ∀ c ∈ a :: rest, c ≠ ';')
    (hb : (a :: rest).getLast? = some b) (hblank : Asm.isBlank b = false) :
    parseLine (name ++ a :: rest) = (Asm.commandOf (name ++ a :: rest)).map some := by
  have hletters := List.all_eq_true.mp hname.2
  apply parseLine_eq_commandOf (a := name.head hname.1) _ (not_blank_of_isLetter (hletters _ (List.head_mem hname.1))) _ hblank
  · intro c hc
    obtain hc | hc := List.mem_append.mp hc
    · exact ne_semicolon_of_isLetter (hletters c hc)
    · exact hs c hc
  · simp [List.head?_eq_some_head hname.1]
  · simp [hb]

theorem parseLine_mnemonic {name text : List Char} {ops : List (List Char)} (hname : IsName name)
    (hplain : Asm.aliasOf name = none) (h : ReadsAs text ops) :
    parseLine (name ++ ' ' :: text) = (Asm.instruction name ops).map some := by
  obtain ⟨b, hb, hblank⟩ := h.last
  rw [parseLine_of_name hname (by simpa using h.noComment) (by simp [List.getLast?_cons, hb]) hblank]
  obtain ⟨htake, hdrop⟩ := hname.takeWhile_and_dropWhile (show Asm.isLetter ' ' = false by decide) text
  simp [Asm.commandOf, htake, hdrop, hplain, operands_space_cons, h.operands, show Asm.isBlank ' ' = true by decide]

theorem getLast?_parenthesised (l : List Char) : ('(' :: (l ++ [')'])).getLast? = some ')' := by
  rw [← List.cons_append, List.getLast?_concat]

theorem insideParens_parenthesised (l : List Char) : Asm.insideParens ('(' :: (l ++ [')'])) = some l := by
  have ht : Asm.trim ('(' :: (l ++ [')'])) = '(' :: (l ++ [')']) :=
    trim_eq_self rfl (by decide) (getLast?_parenthesised l) (by decide)
  simp [Asm.insideParens, ht]

theorem parseLine_call {name mnemonic text : List Char} {ops : List (List Char)} (hname : IsName name)
    (hcall : Asm.aliasOf name = some mnemonic) (h : ReadsAs text ops) :
    parseLine (name ++ '(' :: (text ++ [')'])) = (Asm.instruction mnemonic ops).map some := by
  have hs : ∀ c ∈ '(' :: (text ++ [')']), c ≠ ';' := by simpa [or_imp, forall_and] using h.noComment
  rw [parseLine_of_name hname hs (getLast?_parenthesised text) (by decide)]
  obtain ⟨htake, hdrop⟩ := hname.takeWhile_and_dropWhile (show Asm.isLetter '(' = false by decide) (text ++ [')'])
  simp only [Asm.commandOf, htake, hdrop, hcall, insideParens_parenthesised, h.operands]

theorem parseLine_comment (line comment : List Char) : parseLine (line ++ ';' :: comment) = parseLine line := by
  have ht : (line ++ ';' :: comment).takeWhile (fun c => c != ';') = line.takeWhile fun c => c != ';' := by
    rw [List.takeWhile_append]
    split
    case isTrue hlen => simp [(List.takeWhile_prefix _).eq_of_length hlen]
    case isFalse => rfl
  simp only [parseLine, ht]

/-! ## Numerals as operands (R59) -/

theorem isOperandChar_hexDigit : ∀ d : Fin 16, IsOperandChar (hexDigit d.val) := by decide

theorem isOperandText_numeral {base : Nat} (hbase : base ≤ 16) {ds : List (Fin base)} (hne : ds ≠ []) :
    IsOperandText (numeral ds) := by
  refine ⟨by simpa [numeral] using hne, fun c hc => ?_⟩
  obtain ⟨d, -, rfl⟩ := List.mem_map.mp hc
  exact isOperandChar_hexDigit (d.castLE hbase)

theorem SpellsCount.isOperandText {c : List Char} {n : Int} (h : SpellsCount c n) : IsOperandText c := by
  obtain ⟨ds, hne, ⟨rfl, -⟩ | ⟨rfl, -⟩⟩ := h
  · exact isOperandText_numeral (by decide) hne
  · exact isOperandText_cons (by decide) (isOperandText_numeral (by decide) hne)

theorem SpellsWord.isOperandText {x : List Char} {v : Nat} (h : SpellsWord x v) : IsOperandText x := by
  obtain ⟨ds, hne, rfl, -⟩ | ⟨ds, hne, rfl, -⟩ | ⟨ds, hne, rfl, -⟩ := h
  · exact isOperandText_numeral (by decide) hne
  · exact isOperandText_cons (by decide) (isOperandText_cons (by decide) (isOperandText_numeral (by decide) hne))
  · exact isOperandText_cons (by decide) (isOperandText_cons (by decide) (isOperandText_numeral (by decide) hne))

theorem hexDigit_ten_ne : ∀ d : Fin 10, hexDigit d.val ≠ 'b' ∧ hexDigit d.val ≠ 'x' ∧ hexDigit d.val ≠ '-' := by decide

/-- A decimal numeral is mistaken neither for a literal of another base nor for a negative number. -/
theorem ne_of_mem_decimal {ds : List (Fin 10)} : ∀ c ∈ numeral ds, c ≠ 'b' ∧ c ≠ 'x' ∧ c ≠ '-' := by
  intro c hc
  obtain ⟨d, -, rfl⟩ := List.mem_map.mp hc
  exact hexDigit_ten_ne d

theorem natural_decimal {ds : List (Fin 10)} (hne : ds ≠ []) : Asm.natural (numeral ds) = some (numeralValue ds) := by
  rw [← digits_numeral digit_hexDigit_ten ds hne]
  have hchars := ne_of_mem_decimal (ds := ds)
  unfold Asm.natural
  split
  case h_1 cs heq => simp [heq] at hchars
  case h_2 cs heq => simp [heq] at hchars
  case h_3 => rfl

theorem integer_decimal {ds : List (Fin 10)} (hne : ds ≠ []) :
    Asm.integer (numeral ds) = some (numeralValue ds : Int) := by
  have hchars := ne_of_mem_decimal (ds := ds)
  unfold Asm.integer
  split
  case h_1 cs heq => simp [heq] at hchars
  case h_2 => rw [digits_numeral digit_hexDigit_ten ds hne]; rfl

theorem SpellsCount.integer_eq {c : List Char} {n : Int} (h : SpellsCount c n) : Asm.integer c = some n := by
  obtain ⟨ds, hne, ⟨rfl, rfl⟩ | ⟨rfl, rfl⟩⟩ := h
  · exact integer_decimal hne
  · simp [Asm.integer, digits_numeral digit_hexDigit_ten ds hne]

theorem SpellsWord.natural_eq {x : List Char} {v : Nat} (h : SpellsWord x v) : Asm.natural x = some v := by
  obtain ⟨ds, hne, rfl, rfl⟩ | ⟨ds, hne, rfl, rfl⟩ | ⟨ds, hne, rfl, rfl⟩ := h
  · exact natural_decimal hne
  · exact digits_numeral digit_hexDigit_sixteen ds hne
  · exact digits_numeral digit_hexDigit_two ds hne

theorem SpellsCount.count_of_fits {c : List Char} {n : Int} (h : SpellsCount c n) (hn : -128 ≤ n ∧ n ≤ 127) :
    Asm.count c = .ok n := by
  simp [Asm.count, h.integer_eq, countFits_iff.mpr hn]

theorem SpellsCount.count_of_not_fits {c : List Char} {n : Int} (h : SpellsCount c n) (hn : n < -128 ∨ 127 < n) :
    Asm.count c = .error .countOutOfRange := by
  simp [Asm.count, h.integer_eq, countFits_iff, show ¬(-128 ≤ n ∧ n ≤ 127) by omega]

theorem SpellsWord.word_of_lt {x : List Char} {v : Nat} (h : SpellsWord x v) (hv : v < 2 ^ 64) :
    Asm.word x = .ok (BitVec.ofNat 64 v) := by
  simp only [Asm.word, h.natural_eq, if_pos hv]

theorem SpellsWord.word_of_ge {x : List Char} {v : Nat} (h : SpellsWord x v) (hv : 2 ^ 64 ≤ v) :
    Asm.word x = .error .valueOutOfRange := by
  simp only [Asm.word, h.natural_eq, if_neg (Nat.not_lt.mpr hv)]

/-! ## The lines of each command with operands -/

/-- RD and its call read their operand alike. -/
theorem parseLine_rd {c : List Char} (hc : IsOperandText c) :
    parseLine ("RD ".toList ++ c) = ((Asm.count c).map .rd).map some ∧
    parseLine ("read(".toList ++ c ++ [')']) = ((Asm.count c).map .rd).map some :=
  ⟨parseLine_mnemonic (name := "RD".toList) (by decide) (by decide) (readsAs_one hc),
    parseLine_call (name := "read".toList) (mnemonic := "RD".toList) (by decide) (by decide) (readsAs_one hc)⟩

/-- WR and its call read their operands alike. -/
theorem parseLine_wr {x c : List Char} (hx : IsOperandText x) (hc : IsOperandText c) :
    parseLine ("WR ".toList ++ x ++ ", ".toList ++ c) = (Asm.instruction "WR".toList [x, c]).map some ∧
    parseLine ("write(".toList ++ x ++ ", ".toList ++ c ++ [')']) = (Asm.instruction "WR".toList [x, c]).map some := by
  have hline := parseLine_mnemonic (name := "WR".toList) (by decide) (by decide) (readsAs_two hx hc)
  have hcall := parseLine_call (name := "write".toList) (mnemonic := "WR".toList) (by decide) (by decide) (readsAs_two hx hc)
  exact ⟨by simpa using hline, by simpa using hcall⟩

/-- RBIND and WBIND read their operand alike. -/
theorem parseLine_bind {x : List Char} (hx : IsOperandText x) :
    parseLine ("RBIND ".toList ++ x) = ((Asm.word x).map .rbind).map some ∧
    parseLine ("WBIND ".toList ++ x) = ((Asm.word x).map .wbind).map some :=
  ⟨parseLine_mnemonic (name := "RBIND".toList) (by decide) (by decide) (readsAs_one hx),
    parseLine_mnemonic (name := "WBIND".toList) (by decide) (by decide) (readsAs_one hx)⟩

theorem instruction_wr (x c : List Char) :
    Asm.instruction "WR".toList [x, c] = (Asm.word x).bind fun v => (Asm.count c).map (.wr v) := rfl

theorem instruction_wr_of_fits {x c : List Char} {v : Nat} {n : Int} (hx : SpellsWord x v) (hc : SpellsCount c n)
    (hv : v < 2 ^ 64) (hn : -128 ≤ n ∧ n ≤ 127) :
    Asm.instruction "WR".toList [x, c] = .ok (.wr (BitVec.ofNat 64 v) n) := by
  rw [instruction_wr, hx.word_of_lt hv, hc.count_of_fits hn]
  rfl

/-- WR is refused for either operand. -/
theorem instruction_wr_of_not_fits {x c : List Char} {v : Nat} {n : Int} (hx : SpellsWord x v) (hc : SpellsCount c n)
    (hout : 2 ^ 64 ≤ v ∨ n < -128 ∨ 127 < n) : ∃ e, Asm.instruction "WR".toList [x, c] = .error e := by
  rw [instruction_wr]
  by_cases hv : 2 ^ 64 ≤ v
  · rw [hx.word_of_ge hv]
    exact ⟨_, rfl⟩
  · rw [hx.word_of_lt (Nat.lt_of_not_le hv), hc.count_of_not_fits (hout.resolve_left hv)]
    exact ⟨_, rfl⟩

end Sys2Proof.Machine

section

open Sys2Proof Sys2Proof.Machine

/-- Settles O1: the word of an instruction holds its operands in the fields the decoder reads. -/
theorem encodeThenDecodeIsIdentity : Obligations.EncodeThenDecodeIsIdentity := by
  unfold Obligations.EncodeThenDecodeIsIdentity
  intro i h
  exact decode_encode h

/-- Settles O2: the fields of a word side by side are the word, and `decode_packCommand` has the rows of the opcode map. -/
theorem decodeReadsTheFieldsOfEveryWord : Obligations.DecodeReadsTheFieldsOfEveryWord := by
  unfold Obligations.DecodeReadsTheFieldsOfEveryWord
  exact ⟨fun w => (fields_append w).symm, fun w hr => (packCommand_fields hr).symm, decode_packCommand⟩

/-- Settles O3: the accessors of the decoder are the bit ranges of the rule. -/
theorem illegalWordsAreExactlyThoseOfTheRule : Obligations.IllegalWordsAreExactlyThoseOfTheRule := by
  unfold Obligations.IllegalWordsAreExactlyThoseOfTheRule
  exact decode_error_iff

/-- Settles O6: every accepted line goes through `Asm.instruction`, which takes its counts from `Asm.count`. -/
theorem assemblerAcceptsOnlyWellFormed : Obligations.AssemblerAcceptsOnlyWellFormed := by
  unfold Obligations.AssemblerAcceptsOnlyWellFormed
  intro line i h
  obtain ⟨text, htext⟩ := exists_commandOf_of_parseLine_eq_some h
  obtain ⟨name, ops, hops⟩ := exists_instruction_of_commandOf_eq_ok htext
  exact instruction_wellFormed hops

/-- Settles O26: RD 0 takes the fast path and WR x, 0 the append path, and neither moves a bit. -/
theorem zeroCountsAreNoOperations : Obligations.ZeroCountsAreNoOperations := by
  unfold Obligations.ZeroCountsAreNoOperations
  intro s x hinv
  obtain ⟨⟨-, hbuf, -⟩, ⟨hcnt, -, -⟩, -⟩ := hinv
  constructor
  · intro he
    exact (execRd_fast (by decide) he (Nat.zero_le _)).trans (congrArg _ (rdFast_zero hbuf))
  · intro he
    have hn : s.writer.cnt + (0 : Int).toNat < 64 := Nat.lt_succ_of_le hcnt
    exact (execWr_append (by decide) he hn).trans (congrArg _ (wrAppend_zero x s))

/-- Settles O48: each line is read operand by operand, and each operand is accepted or refused by its range. -/
theorem assemblerReadsEachCommand : Obligations.AssemblerReadsEachCommand := by
  unfold Obligations.AssemblerReadsEachCommand
  refine ⟨fun c n hc => ?_, fun x c v n hx hc => ?_, fun x v hx => ?_, by decide, by decide, by decide, by decide,
    parseLine_comment⟩
  · obtain ⟨hline, hcall⟩ := parseLine_rd hc.isOperandText
    rw [hline, hcall]
    refine ⟨fun hn => ?_, fun hn => ?_⟩
    · rw [hc.count_of_fits hn]
      exact ⟨rfl, rfl⟩
    · rw [hc.count_of_not_fits hn]
      exact ⟨⟨_, rfl⟩, _, rfl⟩
  · obtain ⟨hline, hcall⟩ := parseLine_wr hx.isOperandText hc.isOperandText
    rw [hline, hcall]
    refine ⟨fun hv hn => ?_, fun hout => ?_⟩
    · rw [instruction_wr_of_fits hx hc hv hn]
      exact ⟨rfl, rfl⟩
    · obtain ⟨e, he⟩ := instruction_wr_of_not_fits hx hc hout
      rw [he]
      exact ⟨⟨e, rfl⟩, e, rfl⟩
  · obtain ⟨hrbind, hwbind⟩ := parseLine_bind hx.isOperandText
    rw [hrbind, hwbind]
    refine ⟨fun hv => ?_, fun hv => ?_⟩
    · rw [hx.word_of_lt hv]
      exact ⟨rfl, rfl⟩
    · rw [hx.word_of_ge hv]
      exact ⟨⟨_, rfl⟩, _, rfl⟩

/-- Settles O4: the ten words are evaluated. -/
theorem sampleWordsDecode : Obligations.SampleWordsDecode := by
  unfold Obligations.SampleWordsDecode
  decide

/-- Settles O5: the five numbers by definition, the three fields by the positions of the pieces of the word. -/
theorem responseWordHoldsItsFields : Obligations.ResponseWordHoldsItsFields := by
  unfold Obligations.ResponseWordHoldsItsFields
  refine ⟨rfl, rfl, rfl, rfl, rfl, fun r => ?_⟩
  obtain ⟨hstatus, hcode, hvalue⟩ := r.word_fields
  exact ⟨hstatus, hcode, hvalue, r.status.number_mem⟩

end

/-! SUPPORT. The statements of 40_reader_fronthaul.md: how each path of RD ends, what a run of commands adds to the trace and reads
from the stream, and the round trip through a pair of reference streams (41_writer_backhaul.md R78). -/

namespace Sys2Proof.Machine

/-! ## The slow path of RD, from the answer of its Fill (R63, R64) -/

theorem rdAnswered_of_enough {n : Nat} {a : FillAnswer} {s : State} (hterm : ∀ c, a.term ≠ .err c)
    (hk : n - s.reader.cnt ≤ 8 * a.delivery.bytes.length) : rdAnswered n a s = rdRefill n a.delivery.bytes s := by
  obtain ⟨c, hc, -⟩ | ⟨-, hlt, -⟩ | ⟨-, -, h⟩ := rdAnswered_cases n a s
  case inl => exact absurd hc (hterm c)
  case inr.inl => omega
  case inr.inr => exact h

theorem rdAnswered_of_shortfall {n : Nat} {a : FillAnswer} {s : State} (hterm : ∀ c, a.term ≠ .err c)
    (hk : 8 * a.delivery.bytes.length < n - s.reader.cnt) : rdAnswered n a s = s.failReader .unexpectedEoi := by
  obtain ⟨c, hc, -⟩ | ⟨-, -, h⟩ | ⟨-, hge, -⟩ := rdAnswered_cases n a s
  case inl => exact absurd hc (hterm c)
  case inr.inl => exact h
  case inr.inr => omega

theorem rdAnswered_of_err {n : Nat} {a : FillAnswer} {c : ErrorCode} (s : State) (hterm : a.term = .err c) :
    rdAnswered n a s = s.failReader (.transport c) := by
  simp [rdAnswered, hterm]

/-- A read that fails at its Fill: the whole next state, whatever it latches. -/
theorem execRd_failed {s : State} {n : Int} {a : FillAnswer} {e : InputSide} {l : Latch} (hc : countLegal n = true)
    (he : s.reader.err = .none) (hn : s.reader.cnt < n.toNat) (hf : s.inputs.fill s.reader.sid = some (a, e))
    (hl : rdAnswered n.toNat a ({ s with inputs := e }.record (.fill s.reader.sid a)) =
      ({ s with inputs := e }.record (.fill s.reader.sid a)).failReader l) :
    execRd n s = .next { s with
      reader := ⟨0#64, 0, l, s.reader.sid⟩
      inputs := e
      trace := s.trace ++ [.fill s.reader.sid a, .response l.response] } := by
  rw [execRd_slow hc he hn hf, hl]
  simp [State.failReader, State.respond, State.record, Channel.latch]

/-- A read whose Fill brings enough bits. -/
theorem execRd_refill {s : State} {n : Int} {a : FillAnswer} {e : InputSide} (hc : countLegal n = true)
    (he : s.reader.err = .none) (hn : s.reader.cnt < n.toNat) (hf : s.inputs.fill s.reader.sid = some (a, e))
    (hterm : ∀ c, a.term ≠ .err c) (hk : n.toNat - s.reader.cnt ≤ 8 * a.delivery.bytes.length) :
    execRd n s = .next (rdRefill n.toNat a.delivery.bytes ({ s with inputs := e }.record (.fill s.reader.sid a))) :=
  (execRd_slow hc he hn hf).trans (congrArg _ (rdAnswered_of_enough hterm hk))

/-! ## The events of a run -/

theorem newEvents_self (s : State) : newEvents s s = [] := newEvents_eq (List.append_nil _).symm

theorem newEvents_trans {s m t : State} (hm : s.trace <+: m.trace) (ht : m.trace <+: t.trace) :
    newEvents s t = newEvents s m ++ newEvents m t := by
  obtain ⟨l, hl⟩ := hm
  obtain ⟨l', hl'⟩ := ht
  rw [newEvents_eq hl.symm, newEvents_eq hl'.symm, newEvents_eq (l := l ++ l')]
  rw [← hl', ← hl, List.append_assoc]

theorem exec_trace_prefix {i : Instr} {s t : State} (h : exec i s = .next t) : s.trace <+: t.trace := by
  obtain ⟨txs, -, r, ht, -⟩ := exec_completes h
  exact ⟨txs ++ [.response r], by rw [ht, List.append_assoc]⟩

theorem Runs.trace_prefix {is : List Instr} {s t : State} (h : Runs is s t) : s.trace <+: t.trace := by
  induction is generalizing s with
  | nil => exact h ▸ List.prefix_refl _
  | cons i is ih =>
    obtain ⟨m, hm, hrun⟩ := h
    exact (exec_trace_prefix hm).trans (ih hrun)

/-- The events of a run are those of its first command and then those of the others. -/
theorem newEvents_cons {i : Instr} {is : List Instr} {s m t : State} (hm : exec i s = .next m) (hrun : Runs is m t) :
    newEvents s t = newEvents s m ++ newEvents m t :=
  newEvents_trans (exec_trace_prefix hm) hrun.trace_prefix

theorem runs_append {is js : List Instr} {s m t : State} (his : Runs is s m) (hjs : Runs js m t) : Runs (is ++ js) s t := by
  induction is generalizing s with
  | nil => exact his ▸ hjs
  | cons i is ih =>
    obtain ⟨k, hk, hrun⟩ := his
    exact ⟨k, hk, ih hrun⟩

theorem responsesOf_append (l m : List Event) : responsesOf (l ++ m) = responsesOf l ++ responsesOf m :=
  List.filterMap_append

theorem exec_responds_once {i : Instr} {s t : State} (h : exec i s = .next t) :
    ∃ r, responsesOf (newEvents s t) = [r] := by
  obtain ⟨txs, htxs, r, ht, -⟩ := exec_completes h
  refine ⟨r, ?_⟩
  rw [newEvents_eq (ht.trans (List.append_assoc _ _ _)), responsesOf_append, htxs]
  rfl

/-! ## A read that succeeds (R62, R63, R65) -/

theorem deliveredBytes_fill (h : Handle) (a : FillAnswer) : deliveredBytes [.fill h a] = a.delivery.bytes :=
  List.append_nil _

/-- From `s` to `t` a read of `n` bits has returned `v`, after the transactions `txs` that left the input side as `e`: the result
followed by the bits kept are the bits held before followed by those delivered. -/
structure ReadReturns (n : Nat) (s t : State) (e : InputSide) (txs : List Event) (v : Word) : Prop where
  state : t = { s with reader := t.reader, inputs := e, trace := s.trace ++ (txs ++ [.response (.success v)]) }
  quiet : responsesOf txs = []
  bits : bitsOf v.toNat n ++ t.reader.bits = s.reader.bits ++ bitsOfBytes (deliveredBytes txs)
  width : v.toNat < 2 ^ n
  count : t.reader.cnt + n = s.reader.cnt + 8 * (deliveredBytes txs).length
  zeroAbove : t.reader.buf.toNat < 2 ^ t.reader.cnt
  clear : t.reader.err = .none
  bound : t.reader.sid = s.reader.sid

theorem ReadReturns.newEvents {n : Nat} {s t : State} {e : InputSide} {txs : List Event} {v : Word}
    (h : ReadReturns n s t e txs v) : newEvents s t = txs ++ [.response (.success v)] :=
  newEvents_eq (congrArg State.trace h.state)

theorem ReadReturns.responses {n : Nat} {s t : State} {e : InputSide} {txs : List Event} {v : Word}
    (h : ReadReturns n s t e txs v) : responsesOf (Machine.newEvents s t) = [.success v] := by
  rw [h.newEvents, responsesOf_append, h.quiet]
  rfl

theorem rdFast_returns {n : Nat} {s : State} (hinv : s.reader.Inv) (he : s.reader.err = .none) (hn : n ≤ s.reader.cnt) :
    ∃ v, ReadReturns n s (rdFast n s) s.inputs [] v := by
  obtain ⟨hcnt, hbuf, -⟩ := hinv
  exact ⟨_, {
    state := rfl
    quiet := rfl
    bits := (fastPath_bits hcnt hn).trans (List.append_nil _).symm
    width := (toWord_toNat_le _).trans_lt (shiftRight_lt hbuf)
    count := Nat.sub_add_cancel hn
    zeroAbove := toWord_and_mask_lt _ _
    clear := he
    bound := rfl }⟩

theorem rdRefill_returns {n : Nat} {a : FillAnswer} {s : State} (e : InputSide) (hinv : s.reader.Inv)
    (he : s.reader.err = .none) (hn : n ≤ 64) (hcnt : s.reader.cnt < n)
    (hk : n - s.reader.cnt ≤ 8 * a.delivery.bytes.length) :
    ∃ v, ReadReturns n s (rdRefill n a.delivery.bytes ({ s with inputs := e }.record (.fill s.reader.sid a))) e
      [.fill s.reader.sid a] v := by
  obtain ⟨-, hbuf, -⟩ := hinv
  have hcount : 8 * a.delivery.bytes.length - (n - s.reader.cnt) + n = s.reader.cnt + 8 * a.delivery.bytes.length := by
    omega
  exact ⟨_, {
    state := by simp [rdRefill, State.respond, State.record]
    quiet := rfl
    bits := (refill_bits hn hcnt a.delivery.atMostEight hk).trans
      (congrArg (fun l => s.reader.bits ++ bitsOfBytes l) (deliveredBytes_fill _ a).symm)
    width := refill_lt hbuf hcnt
    count := by rw [deliveredBytes_fill]; exact hcount
    zeroAbove := toWord_and_mask_lt _ _
    clear := he
    bound := rfl }⟩

/-! ## The reads of a run (R68) -/

/-- Each command is taken with its own response. -/
theorem returnedBits_cons (i : Instr) (is : List Instr) (r : Response) (rs : List Response) :
    returnedBits (i :: is) (r :: rs) = returnedBits [i] [r] ++ returnedBits is rs := by
  cases i with
  | rd n => simp [returnedBits]
  | wr _ _ | flush | rbind _ | wbind _ | rpoll | wpoll => rfl

theorem returnedBits_rd_success (n : Int) (v : Word) :
    returnedBits [.rd n] [.success v] = bitsOf v.toNat n.toNat := List.append_nil _

theorem returnedBits_writerCommand {i : Instr} (hi : isReaderCommand i = false) (r : Response) :
    returnedBits [i] [r] = [] := by
  cases i with
  | rd n => cases hi
  | wr _ _ | flush | rbind _ | wbind _ | rpoll | wpoll => rfl

/-- R68 for the commands `is` that led from `s` to `t`. -/
def ReadsInOrder (is : List Instr) (s t : State) : Prop :=
  returnedBits is (responsesOf (newEvents s t)) ++ t.reader.bits =
    s.reader.bits ++ bitsOfBytes (deliveredBytes (newEvents s t))

/-- A command that only responds, and returns no bits. -/
theorem readsInOrder_respond {i : Instr} {s : State} {r : Response} (hr : returnedBits [i] [r] = []) :
    ReadsInOrder [i] s (s.respond r) := by
  have hnew : newEvents s (s.respond r) = [.response r] := newEvents_eq rfl
  rw [ReadsInOrder, hnew]
  exact (congrArg (· ++ _) hr).trans (List.append_nil _).symm

theorem ReadReturns.readsInOrder {n : Int} {s t : State} {e : InputSide} {txs : List Event} {v : Word}
    (h : ReadReturns n.toNat s t e txs v) : ReadsInOrder [.rd n] s t := by
  have hdelivered : deliveredBytes [.response (.success v)] = [] := rfl
  rw [ReadsInOrder, h.responses, returnedBits_rd_success, h.bits, h.newEvents, deliveredBytes_append, hdelivered,
    List.append_nil]

theorem execRd_readsInOrder {n : Int} {s t : State} (hinv : s.reader.Inv) (h : execRd n s = .next t)
    (ht : t.reader.err = .none) : ReadsInOrder [.rd n] s t := by
  obtain ⟨-, rfl⟩ | ⟨-, he, rfl⟩ | ⟨-, he, hn, rfl⟩ | ⟨hc, he, hn, a, e, -, rfl⟩ := execRd_cases h
  case inl => exact readsInOrder_respond rfl
  case inr.inl => exact absurd ht he
  case inr.inr.inl =>
    obtain ⟨v, hv⟩ := rdFast_returns hinv he hn
    exact hv.readsInOrder
  case inr.inr.inr =>
    obtain ⟨h0, h64⟩ := countLegal_iff.mp hc
    obtain ⟨c, -, hx⟩ | ⟨-, -, hx⟩ | ⟨-, hk, hx⟩ :=
      rdAnswered_cases n.toNat a ({ s with inputs := e }.record (.fill s.reader.sid a)) <;> rw [hx] at ht ⊢
    case inl => cases ht
    case inr.inl => cases ht
    case inr.inr =>
      obtain ⟨v, hv⟩ := rdRefill_returns e hinv he (by omega) hn hk
      exact hv.readsInOrder

theorem exec_readsInOrder {i : Instr} {s t : State} (hinv : s.reader.Inv) (hb : ∀ b, i ≠ .rbind b)
    (h : exec i s = .next t) (ht : t.reader.err = .none) : ReadsInOrder [i] s t := by
  cases hi : isReaderCommand i with
  | true =>
    cases i with
    | rd n => exact execRd_readsInOrder hinv h ht
    | rbind b => exact absurd rfl (hb b)
    | rpoll => cases h; exact readsInOrder_respond rfl
    | wr _ _ | flush | wbind _ | wpoll => cases hi
  | false =>
    obtain ⟨-, hreader, -⟩ := exec_writer_frame hi h
    obtain ⟨l, hl, hfill⟩ := exec_writer_addsNoFill hi h
    obtain ⟨r, hr⟩ := exec_responds_once h
    rw [ReadsInOrder, hr, newEvents_eq hl, deliveredBytes_eq_nil hfill, hreader, returnedBits_writerCommand hi]
    exact (List.append_nil _).symm

/-- What is returned and delivered by a command and then by a run adds up. -/
theorem ReadsInOrder.cons {i : Instr} {is : List Instr} {s m t : State} (hm : exec i s = .next m) (hrun : Runs is m t)
    (hhead : ReadsInOrder [i] s m) (htail : ReadsInOrder is m t) : ReadsInOrder (i :: is) s t := by
  obtain ⟨r, hr⟩ := exec_responds_once hm
  rw [ReadsInOrder, hr] at hhead
  rw [ReadsInOrder] at htail ⊢
  rw [newEvents_cons hm hrun, responsesOf_append, hr, deliveredBytes_append, bitsOfBytes_append]
  calc returnedBits (i :: is) (r :: responsesOf (newEvents m t)) ++ t.reader.bits
    _ = returnedBits [i] [r] ++ (returnedBits is (responsesOf (newEvents m t)) ++ t.reader.bits) := by
        rw [returnedBits_cons, List.append_assoc]
    _ = (returnedBits [i] [r] ++ m.reader.bits) ++ bitsOfBytes (deliveredBytes (newEvents m t)) := by
        rw [htail, List.append_assoc]
    _ = _ := by rw [hhead, List.append_assoc]

/-- Without a rebind a latched reader stays latched (10_state.md R26). -/
theorem Runs.reader_latched {is : List Instr} {s t : State} (h : Runs is s t) (hb : ∀ b, Instr.rbind b ∉ is)
    (he : s.reader.err ≠ .none) : t.reader.err ≠ .none := by
  induction is generalizing s with
  | nil => exact h ▸ he
  | cons i is ih =>
    obtain ⟨m, hm, hrun⟩ := h
    obtain ⟨hreader, -, -⟩ := exec_keepsReader (fun b hi => hb b (hi ▸ List.mem_cons_self)) he hm
    exact ih hrun (fun b hmem => hb b (List.mem_cons_of_mem _ hmem)) (hreader ▸ he)

theorem Runs.readsInOrder {is : List Instr} {s t : State} (hrun : Runs is s t) (hinv : s.Inv)
    (hb : ∀ b, Instr.rbind b ∉ is) (ht : t.reader.err = .none) : ReadsInOrder is s t := by
  induction is generalizing s with
  | nil =>
    obtain rfl : t = s := hrun
    rw [ReadsInOrder, newEvents_self]
    exact (List.append_nil _).symm
  | cons i is ih =>
    obtain ⟨m, hm, hrest⟩ := hrun
    have hbis : ∀ b, Instr.rbind b ∉ is := fun b hmem => hb b (List.mem_cons_of_mem _ hmem)
    have hclear : m.reader.err = .none := by
      by_contra hlatched
      exact hrest.reader_latched hbis hlatched ht
    have hhead := exec_readsInOrder hinv.1 (fun b hi => hb b (hi ▸ List.mem_cons_self)) hm hclear
    exact hhead.cons hm hrest (ih hrest (exec_keeps_inv hinv hm) hbis)

/-! ## Reading a reference stream (20_memory.md R30) -/

/-- An unlatched reader, bound to a reference stream that ends with EOF, still has the bits `q` to return: those it holds and those
of the bytes left. -/
def State.Offers (s : State) (q : List Bool) : Prop :=
  s.reader.Inv ∧ s.reader.err = .none ∧
    ∃ rest, s.inputs.RefersTo s.reader.sid rest ∧ s.reader.bits ++ bitsOfBytes rest = q

theorem Channel.bits_length (c : Channel) : c.bits.length = c.cnt := bitsOf_length _ _

/-- A read of no more bits than the reader and a reference stream have takes them from the reader, or from the next bytes of the
stream. -/
theorem execRd_of_refersTo {s : State} {n : Nat} {rest : List Byte} (hinv : s.reader.Inv) (he : s.reader.err = .none)
    (hn : n ≤ 64) (href : s.inputs.RefersTo s.reader.sid rest) (hq : n ≤ s.reader.cnt + 8 * rest.length) :
    ∃ t v e txs rest', execRd n s = .next t ∧ ReadReturns n s t e txs v ∧ e.RefersTo s.reader.sid rest' ∧
      deliveredBytes txs ++ rest' = rest := by
  have hlegal : countLegal n = true := countLegal_iff.mpr (by omega)
  obtain hfast | hslow := le_or_gt n s.reader.cnt
  · obtain ⟨v, hv⟩ := rdFast_returns hinv he hfast
    exact ⟨_, v, _, [], rest, execRd_fast hlegal he hfast, hv, href, rfl⟩
  · have hrest : rest ≠ [] := by rintro rfl; exact absurd hq (Nat.not_le.mpr hslow)
    obtain ⟨e, hf, href'⟩ := InputSide.fill_of_refersToUntil href hrest
    have hk : n - s.reader.cnt ≤ 8 * (deliver rest).bytes.length := by
      rw [deliver_bytes, List.length_take]; omega
    obtain ⟨v, hv⟩ := rdRefill_returns (a := ⟨deliver rest, .ok⟩) e hinv he hn hslow hk
    refine ⟨_, v, e, _, rest.drop 8, execRd_refill hlegal he hslow hf nofun hk, hv, href', ?_⟩
    rw [deliveredBytes_fill, deliver_bytes, List.take_append_drop]

/-- The result is the first of the bits on offer, and the others are still on offer. -/
theorem State.Offers.rd {s : State} {q : List Bool} {n : Nat} (hs : s.Offers q) (hn : n ≤ 64) (hq : n ≤ q.length) :
    ∃ (t : State) (v : Word), exec (.rd n) s = .next t ∧ responsesOf (newEvents s t) = [.success v] ∧
      bitsOf v.toNat n = q.take n ∧ t.Offers (q.drop n) := by
  obtain ⟨hinv, he, rest, href, rfl⟩ := hs
  rw [List.length_append, Channel.bits_length, bitsOfBytes_length] at hq
  obtain ⟨t, v, e, txs, rest', hx, hv, href', rfl⟩ := execRd_of_refersTo hinv he hn href hq
  have hsplit : bitsOf v.toNat n ++ (t.reader.bits ++ bitsOfBytes rest') =
      s.reader.bits ++ bitsOfBytes (deliveredBytes txs ++ rest') := by
    rw [← List.append_assoc, hv.bits, bitsOfBytes_append, List.append_assoc]
  have hinputs : t.inputs = e := congrArg State.inputs hv.state
  refine ⟨t, v, hx, hv.responses, ?_, execRd_keeps_reader_inv hinv hx, hv.clear, rest', ?_, ?_⟩
  · rw [← hsplit, List.take_left' (bitsOf_length _ _)]
  · rwa [hinputs, hv.bound]
  · rw [← hsplit, List.drop_left' (bitsOf_length _ _)]

/-- Reads of no more bits in all return the first of them, each answering OK. -/
theorem State.Offers.reads {reads : List Nat} {s : State} {q : List Bool} (hs : s.Offers q) (hreads : ∀ n ∈ reads, n ≤ 64)
    (hq : reads.sum ≤ q.length) :
    ∃ t : State, Runs (reads.map fun n : Nat => Instr.rd (n : Int)) s t ∧
      (∀ r ∈ responsesOf (newEvents s t), r.status = .ok) ∧
      returnedBits (reads.map fun n : Nat => Instr.rd (n : Int)) (responsesOf (newEvents s t)) = q.take reads.sum := by
  induction reads generalizing s q with
  | nil => exact ⟨s, rfl, by simp [newEvents_self, responsesOf], by simp [returnedBits]⟩
  | cons n reads ih =>
    rw [List.sum_cons] at hq ⊢
    obtain ⟨m, v, hm, hresp, hv, hoffers⟩ := hs.rd (hreads n List.mem_cons_self) (by omega)
    obtain ⟨t, hrun, hok, hret⟩ :=
      ih hoffers (fun k hk => hreads k (List.mem_cons_of_mem _ hk)) (by rw [List.length_drop]; omega)
    refine ⟨t, ⟨m, hm, hrun⟩, ?_⟩
    rw [newEvents_cons hm hrun, responsesOf_append, hresp, List.singleton_append, List.map_cons, returnedBits_cons,
      returnedBits_rd_success, hret, Int.toNat_natCast, hv, ← List.take_add]
    exact ⟨List.forall_mem_cons.mpr ⟨rfl, hok⟩, rfl⟩

/-! ## Writing to a reference stream (20_memory.md R33, 41_writer_backhaul.md R78) -/

theorem OutputSide.drain_of_refersTo {e : OutputSide} {h : Handle} {bytes : List Byte} (href : e.RefersTo h bytes)
    (more : List Byte) : ∃ e', e.drain h more = some (.ok, e') ∧ e'.RefersTo h (bytes ++ more) := by
  obtain ⟨i, st, hs, hdrains, hsyncs, rfl⟩ := href
  have hd : st.drain more = some (.ok, { st with accepted := st.accepted ++ more }) := by simp [OutStream.drain, hdrains]
  exact ⟨_, (drain_of_stream more hs).trans (congrArg _ hd), i, _, stream_set hs, hdrains, hsyncs, rfl⟩

theorem OutputSide.sync_of_refersTo {e : OutputSide} {h : Handle} {bytes : List Byte} (href : e.RefersTo h bytes) :
    ∃ e', e.sync h = some (.ok, e') ∧ e'.RefersTo h bytes := by
  obtain ⟨i, st, hs, hdrains, hsyncs, rfl⟩ := href
  have hy : st.sync = some (.ok, { st with synced := st.syncedAfter .ok }) := by simp [OutStream.sync, hsyncs]
  exact ⟨_, (sync_of_stream hs).trans (congrArg _ hy), i, _, stream_set hs, hdrains, hsyncs, rfl⟩

/-- An unlatched writer, bound by `h` to a reference stream, has been given the bits `q`: those of the bytes the stream has accepted
and those it holds. -/
def State.HasWritten (s : State) (h : Handle) (q : List Bool) : Prop :=
  s.writer.Inv ∧ s.writer.err = .none ∧ s.writer.sid = h ∧
    ∃ bytes, s.outputs.RefersTo h bytes ∧ bitsOfBytes bytes ++ s.writer.bits = q

theorem State.HasWritten.wr {s : State} {h : Handle} {q : List Bool} {n : Nat} (hs : s.HasWritten h q) (x : Word)
    (hn : n ≤ 64) : ∃ t, exec (.wr x n) s = .next t ∧ t.HasWritten h (q ++ bitsOf x.toNat n) := by
  obtain ⟨hinv, he, rfl, bytes, href, rfl⟩ := hs
  have hcnt : s.writer.cnt ≤ 63 := hinv.1
  have hlegal : countLegal n = true := countLegal_iff.mpr (by omega)
  obtain happend | hemit := Nat.lt_or_ge (s.writer.cnt + n) 64
  · have hx : execWr x n s = .next (wrAppend x n s) := execWr_append hlegal he happend
    have hbits : (wrAppend x n s).writer.bits = s.writer.bits ++ bitsOf x.toNat n := wrAppend_bits happend
    exact ⟨_, hx, wrAppend_writer_inv hinv he happend, he, rfl, bytes, href,
      by rw [hbits, List.append_assoc]⟩
  · obtain ⟨e, hd, href'⟩ := OutputSide.drain_of_refersTo href (wrEmitted x n s.writer)
    have hbits : bitsOfBytes (wrEmitted x n s.writer) ++ (wrOverflow x n s.writer).bits =
        s.writer.bits ++ bitsOf x.toNat n := by
      rw [wrEmitted_bits hemit, wrOverflow_bits hcnt hn hemit, List.take_append_drop]
    refine ⟨_, execWr_emit hlegal he hemit hd, inv_wrOverflow x he hcnt hn, he, rfl, _, href', ?_⟩
    rw [bitsOfBytes_append, List.append_assoc, List.append_assoc, ← hbits]
    rfl

theorem State.HasWritten.writes {writes : List (Word × Nat)} {s : State} {h : Handle} {q : List Bool}
    (hs : s.HasWritten h q) (hwrites : ∀ p ∈ writes, p.2 ≤ 64) :
    ∃ t, Runs (writes.map fun p : Word × Nat => Instr.wr p.1 (p.2 : Int)) s t ∧
      t.HasWritten h (q ++ writes.flatMap fun p => bitsOf p.1.toNat p.2) := by
  induction writes generalizing s q with
  | nil => exact ⟨s, rfl, by simpa using hs⟩
  | cons p writes ih =>
    obtain ⟨m, hm, hwritten⟩ := hs.wr p.1 (hwrites p List.mem_cons_self)
    obtain ⟨t, hrun, ht⟩ := ih hwritten fun p' hp' => hwrites p' (List.mem_cons_of_mem _ hp')
    refine ⟨t, ⟨m, hm, hrun⟩, ?_⟩
    rwa [List.flatMap_cons, ← List.append_assoc]

/-- A FLUSH hands over the bits still held, so the accepted bytes begin with all the bits written. -/
theorem State.HasWritten.flush {s : State} {h : Handle} {q : List Bool} (hs : s.HasWritten h q) :
    ∃ t bytes, exec .flush s = .next t ∧ t.outputs.RefersTo h bytes ∧ q <+: bitsOfBytes bytes := by
  obtain ⟨-, he, rfl, bytes, href, rfl⟩ := hs
  by_cases hc : s.writer.cnt = 0
  · obtain ⟨e, hy, href'⟩ := OutputSide.sync_of_refersTo href
    have hbits : s.writer.bits = [] := List.length_eq_zero_iff.mp (s.writer.bits_length.trans hc)
    have hx : execFlush s = _ :=
      (execFlush_empty he hc).trans (flushSync_answered (s := { s with writer := s.writer.emptied }) hy)
    exact ⟨_, bytes, hx, href', by rw [hbits, List.append_nil]⟩
  · obtain ⟨e, hd, href₁⟩ := OutputSide.drain_of_refersTo href (flushBytes s.writer)
    obtain ⟨e', hy, href'⟩ := OutputSide.sync_of_refersTo href₁
    refine ⟨_, _, execFlush_of_drain he hc hd hy, href', ?_⟩
    rw [bitsOfBytes_append, flushBytes_bits, ← List.append_assoc]
    exact List.prefix_append _ _

end Sys2Proof.Machine

section

open Sys2Proof Sys2Proof.Machine

/-- Settles O43, by induction on the commands: a read returns bits from the front of those held and delivered, and every other
command leaves these as they are. -/
theorem readsReturnTheStreamInOrder : Obligations.ReadsReturnTheStreamInOrder := by
  unfold Obligations.ReadsReturnTheStreamInOrder
  intro is s t hinv hrun hb ht
  exact hrun.readsInOrder hinv hb ht

/-- Settles O45: the accepted bytes begin with the bits written, and reads of the same total return the first bits of the bytes. -/
theorem roundTripReturnsTheBitsWritten : Obligations.RoundTripReturnsTheBitsWritten := by
  unfold Obligations.RoundTripReturnsTheBitsWritten
  intro writes reads s hwrites hreads hsum ⟨_, hwinv, _⟩ hc he href
  have hstart : s.HasWritten s.writer.sid [] :=
    ⟨hwinv, he, rfl, [], href, List.length_eq_zero_iff.mp (s.writer.bits_length.trans hc)⟩
  obtain ⟨m, hm, hwritten⟩ := hstart.writes hwrites
  obtain ⟨t, bytes, ht, hbytes, hprefix⟩ := hwritten.flush
  refine ⟨t, bytes, runs_append hm ⟨t, ht, rfl⟩, hbytes, fun u huinv hucnt hue huref => ?_⟩
  have hlen : (writes.flatMap fun p => bitsOf p.1.toNat p.2).length = reads.sum := by
    simp [hsum, List.length_flatMap]
  have huoffers : u.Offers (bitsOfBytes bytes) :=
    ⟨huinv.1, hue, bytes, huref, by rw [List.length_eq_zero_iff.mp (u.reader.bits_length.trans hucnt), List.nil_append]⟩
  obtain ⟨v, hrun, hok, hret⟩ := huoffers.reads hreads (hlen ▸ hprefix.length_le)
  exact ⟨v, hrun, hok, by rw [hret, ← hlen]; exact (List.prefix_iff_eq_take.mp hprefix).symm⟩

/-- Settles O25: the count of bits held decides for the fast path, which splits them. -/
theorem readFastPath : Obligations.ReadFastPath := by
  unfold Obligations.ReadFastPath
  intro s n hinv he h0 hn
  have hcnt : s.reader.cnt ≤ 63 := hinv.1
  have hfast : n.toNat ≤ s.reader.cnt := by omega
  obtain ⟨v, hv⟩ := rdFast_returns hinv he hfast
  exact ⟨_, v, execRd_fast (countLegal_iff.mpr ⟨h0, by omega⟩) he hfast, hv.state, hv.bits.trans (List.append_nil _),
    hv.width, hv.count, hv.zeroAbove, hv.clear, hv.bound⟩

/-- Settles O27: an answered Fill with enough bits leads to the refill, which joins the held bits and the delivered ones. -/
theorem readSlowPath : Obligations.ReadSlowPath := by
  unfold Obligations.ReadSlowPath
  intro s n a e hinv he h64 hcnt hf hterm henough
  have hslow : s.reader.cnt < n.toNat := by omega
  have hk : n.toNat - s.reader.cnt ≤ 8 * a.delivery.bytes.length := by omega
  obtain ⟨v, hv⟩ := rdRefill_returns e hinv he (by omega) hslow hk
  rw [← deliveredBytes_fill s.reader.sid a]
  exact ⟨_, v, execRd_refill (countLegal_iff.mpr (by omega)) he hslow hf hterm hk, hv.state, hv.bits, hv.width, hv.count,
    hv.zeroAbove, hv.clear, hv.bound⟩

/-- Settles O28: the shortfall is tested on the answered Fill, and the latch empties the reader. -/
theorem readShortfallLatchesUnexpectedEoi : Obligations.ReadShortfallLatchesUnexpectedEoi := by
  unfold Obligations.ReadShortfallLatchesUnexpectedEoi
  intro s n a e he h64 hf hterm hshort
  have hk : 8 * a.delivery.bytes.length < n.toNat - s.reader.cnt := by omega
  exact execRd_failed (countLegal_iff.mpr (by omega)) he (by omega) hf (rdAnswered_of_shortfall hterm hk)

/-- Settles O29: the error of the transport is tested before the number of bytes. -/
theorem readTransportErrorLatchesItsCode : Obligations.ReadTransportErrorLatchesItsCode := by
  unfold Obligations.ReadTransportErrorLatchesItsCode
  intro s n a e c he h64 hcnt hf hterm
  exact execRd_failed (countLegal_iff.mpr (by omega)) he (by omega) hf (rdAnswered_of_err _ hterm)

/-- Settles O30: a rebind writes all four fields of its channel and does not read them. -/
theorem bindClearsItsChannel : Obligations.BindClearsItsChannel := by
  unfold Obligations.BindClearsItsChannel
  intro s h
  exact ⟨rfl, rfl⟩

/-- Settles O31: a poll responds with the report of its channel's latch. -/
theorem pollReportsTheLatch : Obligations.PollReportsTheLatch := by
  unfold Obligations.PollReportsTheLatch
  intro s
  exact ⟨⟨_, rfl, congrArg Latch.response, congrArg Latch.response, fun _ => congrArg Latch.response⟩,
    _, rfl, congrArg Latch.response, fun _ => congrArg Latch.response⟩

end

/-! SUPPORT. The statements of 41_writer_backhaul.md: what a command adds to the bits written, the packing of a run of writes and
FLUSHes into bytes, and how each path of WR and the FLUSH of an empty accumulator end. -/

namespace Sys2Proof.Machine

/-! ## The bits a command adds to those written (R78) -/

/-- What a command adds to `Q` of R78 when `k` bits have been written before it. -/
def appendedBits : Instr → Nat → List Bool
  | .wr x n, _ => if countLegal n then bitsOf x.toNat n.toNat else []
  | .flush, k => List.replicate (padding k) false
  | _, _ => []

/-- The bits written by a run are those its first command adds and then those of the others. -/
theorem writtenBits_cons (i : Instr) (is : List Instr) (q : List Bool) :
    writtenBits (i :: is) q = writtenBits is (q ++ appendedBits i q.length) := by
  cases i with
  | wr x n => cases hc : countLegal n <;> simp [writtenBits, appendedBits, hc]
  | flush => rfl
  | rd _ | rbind _ | wbind _ | rpoll | wpoll => simp [writtenBits, appendedBits]

theorem padding_add_whole_bytes (m k : Nat) : padding (8 * m + k) = padding k := by unfold padding; omega

/-- Whole bytes written earlier do not change what a command adds. -/
theorem appendedBits_add_whole_bytes (i : Instr) (m k : Nat) : appendedBits i (8 * m + k) = appendedBits i k := by
  cases i with
  | flush => exact congrArg (List.replicate · false) (padding_add_whole_bytes m k)
  | wr _ _ | rd _ | rbind _ | wbind _ | rpoll | wpoll => rfl

theorem appendedBits_readerCommand {i : Instr} (hi : isReaderCommand i = true) (k : Nat) : appendedBits i k = [] := by
  cases i with
  | rd _ | rbind _ | rpoll => rfl
  | wr _ _ | flush | wbind _ | wpoll => cases hi

theorem appendedBits_wr {n : Int} (hc : countLegal n = true) (x : Word) (k : Nat) :
    appendedBits (.wr x n) k = bitsOf x.toNat n.toNat := if_pos hc

theorem appendedBits_wr_illegal {n : Int} (hc : countLegal n = false) (x : Word) (k : Nat) :
    appendedBits (.wr x n) k = [] := if_neg (by rw [hc]; exact Bool.false_ne_true)

/-! ## No bit is lost between the accumulator and the Drains -/

/-- From `s` to `t` the writer has taken in the bits `l`: the bits of the bytes drained and those held now are the bits held before,
followed by `l`. -/
def TakesIn (s t : State) (l : List Bool) : Prop :=
  bitsOfBytes (drainedBytes (newEvents s t)) ++ t.writer.bits = s.writer.bits ++ l

theorem takesIn_of_events {s t : State} {l : List Event} {q : List Bool} (ht : t.trace = s.trace ++ l)
    (hq : bitsOfBytes (drainedBytes l) ++ t.writer.bits = s.writer.bits ++ q) : TakesIn s t q := by
  rwa [TakesIn, newEvents_eq ht]

/-- A command that leaves the writer alone takes in nothing. -/
theorem KeepsWriter.takesIn_nil {s t : State} (h : KeepsWriter s t) : TakesIn s t [] := by
  obtain ⟨hwriter, -, l, ht, hdrain, -⟩ := h
  refine takesIn_of_events ht ?_
  rw [drainedBytes_eq_nil hdrain, hwriter, bitsOfBytes_nil, List.nil_append, List.append_nil]

theorem wrAppend_takesIn {x : Word} {n : Nat} {s : State} (hn : s.writer.cnt + n < 64) :
    TakesIn s (wrAppend x n s) (bitsOf x.toNat n) :=
  takesIn_of_events (l := [.response (.success 0#64)]) rfl (wrAppend_bits hn)

/-- The word emitted and the overflow are the pending bits (R72). -/
theorem wrEmitted_append_wrOverflow {x : Word} {n : Nat} {c : Channel} (hc : c.cnt ≤ 63) (hn : n ≤ 64) (h : 64 ≤ c.cnt + n) :
    bitsOfBytes (wrEmitted x n c) ++ (wrOverflow x n c).bits = c.bits ++ bitsOf x.toNat n := by
  rw [wrEmitted_bits h, wrOverflow_bits hc hn h, List.take_append_drop]

theorem drainedBytes_drain (h : Handle) (bytes : List Byte) (a : DrainAnswer) (l : List Event) (hl : drainedBytes l = []) :
    drainedBytes (.drain h bytes a :: l) = bytes :=
  (congrArg (bytes ++ ·) hl).trans (List.append_nil bytes)

theorem drain_ok_of_wrAnswered_clear {a : DrainAnswer} {s : State} (h : (wrAnswered a s).writer.err = .none) : a = .ok := by
  cases a with
  | ok => rfl
  | err c k => cases h

theorem sync_ok_of_flushSynced_clear {a : SyncAnswer} {s : State} (h : (flushSynced a s).writer.err = .none) : a = .ok := by
  cases a with
  | ok => rfl
  | err c => cases h

theorem execWr_takesIn {x : Word} {n : Int} {s t : State} (hinv : s.writer.Inv) (h : execWr x n s = .next t)
    (ht : t.writer.err = .none) : TakesIn s t (appendedBits (.wr x n) s.writer.cnt) := by
  obtain ⟨hcnt, -, -⟩ := hinv
  obtain ⟨hc, rfl⟩ | ⟨-, he, rfl⟩ | ⟨hc, -, hn, rfl⟩ | ⟨hc, -, hn, a, e, -, rfl⟩ := execWr_cases h
  case inl => exact appendedBits_wr_illegal hc x _ ▸ (keepsWriter_respond s _).takesIn_nil
  case inr.inl => exact absurd ht he
  case inr.inr.inl => exact appendedBits_wr hc x _ ▸ wrAppend_takesIn hn
  case inr.inr.inr =>
    obtain rfl := drain_ok_of_wrAnswered_clear ht
    obtain ⟨-, h64⟩ := countLegal_iff.mp hc
    rw [appendedBits_wr hc]
    refine takesIn_of_events (List.append_assoc _ _ _) ?_
    rw [List.singleton_append, drainedBytes_drain _ _ _ _ rfl]
    exact wrEmitted_append_wrOverflow hcnt (by omega) hn

/-- A FLUSH that leaves the latch clear has drained the bits held and their padding, and holds none. -/
theorem execFlush_takesIn {s t : State} (h : execFlush s = .next t) (ht : t.writer.err = .none) :
    TakesIn s t (List.replicate (padding s.writer.cnt) false) := by
  obtain ⟨he, rfl⟩ | ⟨-, hc, hy⟩ | ⟨-, -, a, e, -, ⟨c, k, -, rfl⟩ | ⟨rfl, hy⟩⟩ := execFlush_cases h
  case inl => exact absurd ht he
  case inr.inl =>
    obtain ⟨a, e, -, rfl⟩ := flushSync_cases hy
    obtain rfl := sync_ok_of_flushSynced_clear ht
    have hbits : s.writer.bits = [] := List.length_eq_zero_iff.mp (s.writer.bits_length.trans hc)
    refine takesIn_of_events (List.append_assoc _ _ _) ?_
    rw [hbits, hc]
    rfl
  case inr.inr.inl => cases ht
  case inr.inr.inr =>
    obtain ⟨a, e', -, rfl⟩ := flushSync_cases hy
    obtain rfl := sync_ok_of_flushSynced_clear ht
    refine takesIn_of_events (l := [.drain s.writer.sid (flushBytes s.writer) .ok, .sync s.writer.sid .ok,
      .response (.success 0#64)]) (by simp [flushSynced]) ?_
    rw [drainedBytes_drain _ _ _ _ rfl, flushBytes_bits]
    exact List.append_nil _

theorem exec_takesIn {i : Instr} {s t : State} (hinv : s.writer.Inv) (hb : ∀ b, i ≠ .wbind b) (h : exec i s = .next t)
    (ht : t.writer.err = .none) : TakesIn s t (appendedBits i s.writer.cnt) := by
  cases hi : isReaderCommand i with
  | true =>
    obtain ⟨-, hwriter, houtputs⟩ := exec_reader_frame hi h
    have hkeeps : KeepsWriter s t := ⟨hwriter, houtputs, exec_reader_addsNoDrainOrSync hi h⟩
    exact appendedBits_readerCommand hi _ ▸ hkeeps.takesIn_nil
  | false =>
    cases i with
    | wr x n => exact execWr_takesIn hinv h ht
    | flush => exact execFlush_takesIn h ht
    | wbind b => exact absurd rfl (hb b)
    | wpoll => cases h; exact (keepsWriter_respond s _).takesIn_nil
    | rd _ | rbind _ | rpoll => cases hi

/-! ## The writes of a run (R78) -/

/-- Without a rebind a latched writer stays latched (10_state.md R26). -/
theorem Runs.writer_latched {is : List Instr} {s t : State} (h : Runs is s t) (hb : ∀ b, Instr.wbind b ∉ is)
    (he : s.writer.err ≠ .none) : t.writer.err ≠ .none := by
  induction is generalizing s with
  | nil => exact h ▸ he
  | cons i is ih =>
    obtain ⟨hbi, hbis⟩ := forall_and.mp fun b => not_or.mp (List.mem_cons.not.mp (hb b))
    obtain ⟨m, hm, hrun⟩ := h
    obtain ⟨hwriter, -, -⟩ := exec_keepsWriter (fun b hi => hbi b hi.symm) he hm
    exact ih hrun hbis (hwriter ▸ he)

/-- R78 for the commands `is` that led from `s` to `t`, after any bytes drained earlier: these and the bits held in `s` are the bits
written before the run. -/
def PacksWrites (is : List Instr) (s t : State) : Prop :=
  ∀ drained : List Byte, bitsOfBytes (drained ++ drainedBytes (newEvents s t)) ++ t.writer.bits =
    writtenBits is (bitsOfBytes drained ++ s.writer.bits)

theorem packsWrites_nil (s : State) : PacksWrites [] s s := by
  intro drained
  rw [newEvents_self]
  exact congrArg (bitsOfBytes · ++ s.writer.bits) (List.append_nil drained)

/-- The bytes drained by a command stand before those of the run that follows; the padding of a FLUSH is the same whether it is
counted from the bits held or from all the bits written. -/
theorem PacksWrites.cons {i : Instr} {is : List Instr} {s m t : State} (hm : exec i s = .next m) (hrun : Runs is m t)
    (hhead : TakesIn s m (appendedBits i s.writer.cnt)) (htail : PacksWrites is m t) : PacksWrites (i :: is) s t := by
  intro drained
  have hlen : (bitsOfBytes drained ++ s.writer.bits).length = 8 * drained.length + s.writer.cnt := by
    rw [List.length_append, bitsOfBytes_length, Channel.bits_length]
  rw [TakesIn] at hhead
  calc bitsOfBytes (drained ++ drainedBytes (newEvents s t)) ++ t.writer.bits
    _ = writtenBits is (bitsOfBytes (drained ++ drainedBytes (newEvents s m)) ++ m.writer.bits) := by
        rw [newEvents_cons hm hrun, drainedBytes_append, ← List.append_assoc, htail]
    _ = writtenBits is (bitsOfBytes drained ++ s.writer.bits ++ appendedBits i s.writer.cnt) := by
        rw [bitsOfBytes_append, List.append_assoc, hhead, List.append_assoc]
    _ = _ := by rw [writtenBits_cons, hlen, appendedBits_add_whole_bytes]

theorem Runs.packsWrites {is : List Instr} {s t : State} (hrun : Runs is s t) (hinv : s.Inv)
    (hb : ∀ b, Instr.wbind b ∉ is) (ht : t.writer.err = .none) : PacksWrites is s t := by
  induction is generalizing s with
  | nil =>
    obtain rfl : t = s := hrun
    exact packsWrites_nil t
  | cons i is ih =>
    obtain ⟨hbi, hbis⟩ := forall_and.mp fun b => not_or.mp (List.mem_cons.not.mp (hb b))
    obtain ⟨m, hm, hrest⟩ := hrun
    have ⟨_, hwinv, _⟩ := hinv
    have hclear : m.writer.err = .none := by
      by_contra hlatched
      exact hrest.writer_latched hbis hlatched ht
    exact .cons hm hrest (exec_takesIn hwinv (fun b hi => hbi b hi.symm) hm hclear) (ih hrest (exec_keeps_inv hinv hm) hbis)

/-! ## WR, from the answer of its Drain (R72) -/

/-- The bytes WR drains are determined by their bits. -/
theorem eq_wrEmitted {x : Word} {n : Nat} {c : Channel} {bytes : List Byte} (h : 64 ≤ c.cnt + n)
    (hbits : bitsOfBytes bytes = (c.bits ++ bitsOf x.toNat n).take 64) : bytes = wrEmitted x n c :=
  bitsOfBytes_injective (hbits.trans (wrEmitted_bits h).symm)

/-- A Drain that answers OK: the overflow stays. -/
theorem execWr_of_drain {s : State} {x : Word} {n : Int} {e : OutputSide} (hc : countLegal n = true)
    (he : s.writer.err = .none) (hn : 64 ≤ s.writer.cnt + n.toNat)
    (hd : s.outputs.drain s.writer.sid (wrEmitted x n.toNat s.writer) = some (.ok, e)) :
    execWr x n s = .next { s with
      writer := wrOverflow x n.toNat s.writer
      outputs := e
      trace := s.trace ++ [.drain s.writer.sid (wrEmitted x n.toNat s.writer) .ok, .response (.success 0#64)] } := by
  rw [execWr_emit hc he hn hd]
  simp [wrAnswered, State.respond, State.record]

/-- A failed Drain: the writer latches, and the overflow is gone. -/
theorem execWr_of_failed_drain {s : State} {x : Word} {n : Int} {c : ErrorCode} {k : Nat} {e : OutputSide}
    (hc : countLegal n = true) (he : s.writer.err = .none) (hn : 64 ≤ s.writer.cnt + n.toNat)
    (hd : s.outputs.drain s.writer.sid (wrEmitted x n.toNat s.writer) = some (.err c k, e)) :
    execWr x n s = .next { s with
      writer := ⟨0#64, 0, .transport c, s.writer.sid⟩
      outputs := e
      trace := s.trace ++ [.drain s.writer.sid (wrEmitted x n.toNat s.writer) (.err c k),
        .response ⟨.transport, c, 0#64⟩] } := by
  rw [execWr_emit hc he hn hd]
  simp [wrAnswered, State.failWriter, State.respond, State.record, Channel.latch, Latch.response, Latch.kind, Latch.code]

/-! ## FLUSH of an empty accumulator (R74) -/

/-- By INV-ZERO-ABOVE an accumulator without bits is 0, so emptying it changes nothing. -/
theorem Channel.emptied_of_empty {c : Channel} (hinv : c.Inv) (hc : c.cnt = 0) : c.emptied = c := by
  obtain ⟨-, hbuf, -⟩ := hinv
  have hzero : c.buf = 0#64 := BitVec.eq_of_toNat_eq (Nat.lt_one_iff.mp (by simpa [hc] using hbuf))
  rw [Channel.emptied, ← hzero, ← hc]

theorem execFlush_of_empty {s : State} {a : SyncAnswer} {e : OutputSide} (hinv : s.writer.Inv) (he : s.writer.err = .none)
    (hc : s.writer.cnt = 0) (hy : s.outputs.sync s.writer.sid = some (a, e)) :
    execFlush s = .next (flushSynced a ({ s with outputs := e }.record (.sync s.writer.sid a))) := by
  rw [execFlush_empty he hc, Channel.emptied_of_empty hinv hc]
  exact flushSync_answered hy

end Sys2Proof.Machine

section

open Sys2Proof Sys2Proof.Machine

/-- Settles O44, by induction on the commands, for any bytes drained before the run: a write or a FLUSH hands over pending bits from
the front and keeps the others, and every other command leaves both as they are. -/
theorem writesProduceThePackedBits : Obligations.WritesProduceThePackedBits := by
  unfold Obligations.WritesProduceThePackedBits
  intro is s t hinv hc hrun hb ht
  have hbits : s.writer.bits = [] := List.length_eq_zero_iff.mp (s.writer.bits_length.trans hc)
  have hpacks := hrun.packsWrites hinv hb ht []
  rwa [hbits] at hpacks

/-- Settles O32: a total below 64 leads to the append, which joins the held bits and the operand's. -/
theorem writeAppendsWithoutEmission : Obligations.WriteAppendsWithoutEmission := by
  unfold Obligations.WriteAppendsWithoutEmission
  intro s x n hinv he h0 hn
  have hlegal : countLegal n = true := countLegal_iff.mpr (by omega)
  have happend : s.writer.cnt + n.toNat < 64 := by omega
  obtain ⟨-, hbuf, -⟩ := wrAppend_writer_inv (x := x) hinv he happend
  exact ⟨_, execWr_append hlegal he happend, rfl, wrAppend_bits happend, rfl, hbuf, he, rfl⟩

/-- Settles O33: the bytes are those WR emits, since they have the same bits, and the overflow is the rest of the pending bits. -/
theorem writeEmitsOneWord : Obligations.WriteEmitsOneWord := by
  unfold Obligations.WriteEmitsOneWord
  intro s x n bytes e ⟨hcnt, _⟩ he h0 h64 hn hbits hd
  have hemit : 64 ≤ s.writer.cnt + n.toNat := by omega
  have hn64 : n.toNat ≤ 64 := by omega
  obtain rfl := eq_wrEmitted hemit hbits
  obtain ⟨-, hbuf, -⟩ := inv_wrOverflow x he hcnt hn64
  exact ⟨_, execWr_of_drain (countLegal_iff.mpr ⟨h0, h64⟩) he hemit hd, rfl, wrOverflow_bits hcnt hn64 hemit,
    Nat.sub_add_cancel hemit, hbuf, he, rfl⟩

/-- Settles O34: the bytes are those WR emits, and the latch empties the writer. -/
theorem writeDrainFailureLatches : Obligations.WriteDrainFailureLatches := by
  unfold Obligations.WriteDrainFailureLatches
  intro s x n bytes c k e _ he h0 h64 hn hbits hd
  have hemit : 64 ≤ s.writer.cnt + n.toNat := by omega
  obtain rfl := eq_wrEmitted hemit hbits
  exact execWr_of_failed_drain (countLegal_iff.mpr ⟨h0, h64⟩) he hemit hd

/-- Settles O35: an empty accumulator needs no padding, so the Sync is the only transaction, and its answer decides. -/
theorem flushOfAnEmptyWriterOnlySyncs : Obligations.FlushOfAnEmptyWriterOnlySyncs := by
  unfold Obligations.FlushOfAnEmptyWriterOnlySyncs
  intro s e hinv he hc
  refine ⟨fun hy => (execFlush_of_empty hinv he hc hy).trans ?_, fun c hy => (execFlush_of_empty hinv he hc hy).trans ?_⟩
  · simp [flushSynced, State.respond, State.record, Response.success]
  · simp [flushSynced, State.failWriter, State.respond, State.record, Channel.latch, Latch.response, Latch.kind, Latch.code]

end

/-! SUPPORT. The statements of 60_exceptions.md: the answer to an illegal word, what a latched channel reports, and that a latch is
entered by a failing command only. -/

namespace Sys2Proof.Machine

/-! ## Illegal words (R83) -/

theorem step_of_decode_error {s : State} {w : CmdWord} {rest : List PortInput} {e : Illegal}
    (hp : s.port = .command w :: rest) (hd : decode w = .error e) :
    step s = .next (State.answerIllegal { s with port := rest }) := by
  simp only [step, State.fetch_of_port hp, hd]

/-! ## What a latched channel reports (R85) -/

theorem execRd_reports {s : State} {n : Int} {e : Latch} (hc : countLegal n = true) (he : s.reader.err = e)
    (hset : e ≠ .none) : execRd n s = .next (s.respond e.response) := by
  subst he
  exact execRd_latched hc hset

theorem execWr_reports {s : State} {n : Int} {e : Latch} (x : Word) (hc : countLegal n = true) (he : s.writer.err = e)
    (hset : e ≠ .none) : execWr x n s = .next (s.respond e.response) := by
  subst he
  exact execWr_latched hc hset

theorem execFlush_reports {s : State} {e : Latch} (he : s.writer.err = e) (hset : e ≠ .none) :
    execFlush s = .next (s.respond e.response) := by
  subst he
  exact execFlush_latched hset

/-! ## Entering the latch (R84, R88) -/

/-- In `t` the reader, bound to `h`, has just failed. -/
def ReaderFailed (h : Handle) (t : State) : Prop := ∃ (u : State) (e : Latch), t = u.failReader e ∧ u.reader.sid = h

/-- In `t` the writer, bound to `h`, has just failed: with an error of the transport, as no other is latched there (R21). -/
def WriterFailed (h : Handle) (t : State) : Prop :=
  ∃ (u : State) (c : ErrorCode), t = u.failWriter (.transport c) ∧ u.writer.sid = h

theorem ReaderFailed.empty_and_reported {b : Handle} {t : State} (h : ReaderFailed b t) :
    t.reader.buf = 0#64 ∧ t.reader.cnt = 0 ∧ t.reader.sid = b ∧
      t.trace.getLast? = some (.response t.reader.err.response) := by
  obtain ⟨u, e, rfl, hsid⟩ := h
  exact ⟨rfl, rfl, hsid, List.getLast?_concat⟩

theorem WriterFailed.empty_and_reported {b : Handle} {t : State} (h : WriterFailed b t) :
    (∃ c, t.writer.err = .transport c) ∧ t.writer.buf = 0#64 ∧ t.writer.cnt = 0 ∧ t.writer.sid = b ∧
      t.trace.getLast? = some (.response t.writer.err.response) := by
  obtain ⟨u, c, rfl, hsid⟩ := h
  exact ⟨⟨c, rfl⟩, rfl, rfl, hsid, List.getLast?_concat⟩

/-! ### RD on a clear reader -/

theorem rdAnswered_readerFailed {n : Nat} {a : FillAnswer} {s : State}
    (ht : (rdAnswered n a s).reader.err ≠ .none) (he : s.reader.err = .none) : ReaderFailed s.reader.sid (rdAnswered n a s) := by
  obtain ⟨c, -, h⟩ | ⟨-, -, h⟩ | ⟨-, -, h⟩ := rdAnswered_cases n a s
  case inl => exact ⟨s, _, h, rfl⟩
  case inr.inl => exact ⟨s, _, h, rfl⟩
  case inr.inr =>
    rw [h] at ht
    exact absurd he ht

/-- Only the slow path can set the latch: the other paths respond with the reader's `err` as it was. -/
theorem execRd_readerFailed {n : Int} {s t : State} (h : execRd n s = .next t) (he : s.reader.err = .none)
    (ht : t.reader.err ≠ .none) : ReaderFailed s.reader.sid t := by
  obtain ⟨-, rfl⟩ | ⟨-, he', -⟩ | ⟨-, -, -, rfl⟩ | ⟨-, -, -, a, e, -, rfl⟩ := execRd_cases h
  case inl => exact absurd he ht
  case inr.inl => exact absurd he he'
  case inr.inr.inl => exact absurd he ht
  case inr.inr.inr => exact (rdAnswered_readerFailed ht he :)

theorem exec_sets_reader_latch {i : Instr} {s t : State} (h : exec i s = .next t) (he : s.reader.err = .none)
    (ht : t.reader.err ≠ .none) : (∃ n, i = .rd n) ∧ ReaderFailed s.reader.sid t := by
  cases hi : isReaderCommand i with
  | true =>
    cases i with
    | rd n => exact ⟨⟨n, rfl⟩, execRd_readerFailed h he ht⟩
    | rbind b => cases h; exact absurd rfl ht
    | rpoll => cases h; exact absurd he ht
    | wr _ _ | flush | wbind _ | wpoll => cases hi
  | false =>
    obtain ⟨-, hreader, -⟩ := exec_writer_frame hi h
    exact absurd (hreader ▸ he) ht

/-! ### WR and FLUSH on a clear writer -/

theorem wrAnswered_writerFailed {a : DrainAnswer} {s : State}
    (ht : (wrAnswered a s).writer.err ≠ .none) (he : s.writer.err = .none) : WriterFailed s.writer.sid (wrAnswered a s) := by
  cases a with
  | ok => exact absurd he ht
  | err c k => exact ⟨s, c, rfl, rfl⟩

theorem flushSynced_writerFailed {a : SyncAnswer} {s : State}
    (ht : (flushSynced a s).writer.err ≠ .none) (he : s.writer.err = .none) : WriterFailed s.writer.sid (flushSynced a s) := by
  cases a with
  | ok => exact absurd he ht
  | err c => exact ⟨s, c, rfl, rfl⟩

/-- Only an emission can set the latch, and before its Drain it has changed `buf` and `cnt` only. -/
theorem execWr_writerFailed {x : Word} {n : Int} {s t : State} (h : execWr x n s = .next t) (he : s.writer.err = .none)
    (ht : t.writer.err ≠ .none) : WriterFailed s.writer.sid t := by
  obtain ⟨-, rfl⟩ | ⟨-, he', -⟩ | ⟨-, -, -, rfl⟩ | ⟨-, -, -, a, e, -, rfl⟩ := execWr_cases h
  case inl => exact absurd he ht
  case inr.inl => exact absurd he he'
  case inr.inr.inl => exact absurd he ht
  case inr.inr.inr => exact (wrAnswered_writerFailed ht he :)

theorem flushSync_writerFailed {s t : State} (h : flushSync s = .next t) (he : s.writer.err = .none)
    (ht : t.writer.err ≠ .none) : WriterFailed s.writer.sid t := by
  obtain ⟨a, e, -, rfl⟩ := flushSync_cases h
  exact (flushSynced_writerFailed ht he :)

/-- A FLUSH sets the latch at its Drain or at its Sync, after emptying the accumulator (R75). -/
theorem execFlush_writerFailed {s t : State} (h : execFlush s = .next t) (he : s.writer.err = .none)
    (ht : t.writer.err ≠ .none) : WriterFailed s.writer.sid t := by
  obtain ⟨he', -⟩ | ⟨-, -, hy⟩ | ⟨-, -, a, e, -, ⟨c, k, -, rfl⟩ | ⟨-, hy⟩⟩ := execFlush_cases h
  case inl => exact absurd he he'
  case inr.inl => exact (flushSync_writerFailed hy he ht :)
  case inr.inr.inl => exact ⟨_, c, rfl, rfl⟩
  case inr.inr.inr => exact (flushSync_writerFailed hy he ht :)

theorem exec_sets_writer_latch {i : Instr} {s t : State} (h : exec i s = .next t) (he : s.writer.err = .none)
    (ht : t.writer.err ≠ .none) : ((∃ x n, i = .wr x n) ∨ i = .flush) ∧ WriterFailed s.writer.sid t := by
  cases hi : isReaderCommand i with
  | true =>
    obtain ⟨-, hwriter, -⟩ := exec_reader_frame hi h
    exact absurd (hwriter ▸ he) ht
  | false =>
    cases i with
    | wr x n => exact ⟨.inl ⟨x, n, rfl⟩, execWr_writerFailed h he ht⟩
    | flush => exact ⟨.inr rfl, execFlush_writerFailed h he ht⟩
    | wbind b => cases h; exact absurd rfl ht
    | wpoll => cases h; exact absurd he ht
    | rd _ | rbind _ | rpoll => cases hi

end Sys2Proof.Machine

section

open Sys2Proof Sys2Proof.Machine

/-- Settles O23: a latch that a command sets was set by a failure of that command on its own channel, as its last act. -/
theorem onlyFailuresSetTheLatch : Obligations.OnlyFailuresSetTheLatch := by
  unfold Obligations.OnlyFailuresSetTheLatch
  intro i s t h
  constructor
  · intro he ht
    obtain ⟨hi, hfails⟩ := exec_sets_reader_latch h he ht
    exact ⟨hi, hfails.empty_and_reported⟩
  · intro he ht
    obtain ⟨hi, hfails⟩ := exec_sets_writer_latch h he ht
    exact ⟨hi, hfails.empty_and_reported⟩

/-- Settles O8: such a word does not decode, so the step answers it without looking at either channel. -/
theorem illegalCommandIsAnsweredWithoutEffect : Obligations.IllegalCommandIsAnsweredWithoutEffect := by
  unfold Obligations.IllegalCommandIsAnsweredWithoutEffect
  intro s w rest hp hillegal
  obtain ⟨e, hd⟩ := (decode_error_iff w).mpr hillegal
  exact step_of_decode_error hp hd

/-- Settles O21: RD and WR test the count before they look at their channel. -/
theorem invalidCountChangesNothing : Obligations.InvalidCountChangesNothing := by
  unfold Obligations.InvalidCountChangesNothing
  intro s x n hn
  have hc : countLegal n = false := countLegal_eq_false_iff.mpr hn
  exact ⟨execRd_invalidCount s hc, execWr_invalidCount s hc⟩

/-- Settles O22: after the count, RD and WR test the latch, and FLUSH tests it first. -/
theorem latchedChannelAnswersItsError : Obligations.LatchedChannelAnswersItsError := by
  unfold Obligations.LatchedChannelAnswersItsError
  intro s x n h0 h64
  have hc : countLegal n = true := countLegal_iff.mpr ⟨h0, h64⟩
  exact ⟨fun he => execRd_reports hc he nofun, fun c he => execRd_reports hc he nofun,
    fun c he => ⟨execWr_reports x hc he nofun, execFlush_reports he nofun⟩⟩

end

/-! SUPPORT. The statements of 70_reset_and_hazards.md: what a hardware reset leaves of the unit and of its streams, between two
commands and in the middle of one, and where a stream stops the unit. -/

namespace Sys2Proof.Machine

/-! ## Hardware reset between two commands (R97, R98) -/

/-- An event that is no response leaves the responses of the trace as they are. -/
theorem State.record_responses {s : State} {e : Event} (he : responsesOf [e] = []) :
    responsesOf (s.record e).trace = responsesOf s.trace := by
  rw [State.record_trace, responsesOf_append, he, List.append_nil]

theorem State.hardwareReset_responses (s : State) : responsesOf s.hardwareReset.trace = responsesOf s.trace :=
  s.resetUnit.record_responses (e := .reset) rfl

theorem State.hardwareReset_requests (s : State) : requestsOf s.hardwareReset.trace = requestsOf s.trace :=
  List.filterMap_append.trans (List.append_nil _)

theorem step_of_reset {s : State} {rest : List PortInput} (hp : s.port = .reset :: rest) :
    step s = .next (State.hardwareReset { s with port := rest }) := by
  simp only [step, State.fetch_of_port hp]

/-! ## A command cut off by hardware reset (R96, U6) -/

theorem step_of_cutByReset {s : State} {w : CmdWord} {performed : List Bool} {rest : List PortInput}
    (hp : s.port = .cutByReset w performed :: rest) :
    step s = .next (State.cutCommand { s with port := rest } w performed) := by
  simp only [step, State.fetch_of_port hp]

theorem State.perform_port (s : State) (r : Request) : (s.perform r).port = s.port := by cases r <;> rfl

theorem State.perform_trace (s : State) (r : Request) : (s.perform r).trace = s.trace := by cases r <;> rfl

/-- The environment's side of a cut takes nothing from the port and gives no response, whichever transactions it performs. -/
theorem State.performCut_port_responses (s : State) (rs : List Request) (performed : List Bool) :
    (s.performCut rs performed).port = s.port ∧
      responsesOf (s.performCut rs performed).trace = responsesOf s.trace := by
  induction rs generalizing s performed with
  | nil => exact ⟨rfl, rfl⟩
  | cons r rs ih =>
    match performed with
    | [] => exact ⟨rfl, rfl⟩
    | false :: _ => exact ⟨rfl, s.record_responses (e := .abandoned r false) rfl⟩
    | true :: performed =>
      obtain ⟨hport, hresp⟩ := ih ((s.perform r).record (.abandoned r true)) performed
      have hrecord := (s.perform r).record_responses (e := .abandoned r true) rfl
      exact ⟨hport.trans (s.perform_port r), hresp.trans (hrecord.trans (congrArg responsesOf (s.perform_trace r)))⟩

/-- Where no transaction was performed, no stream has changed. -/
theorem State.performCut_of_none_performed (s : State) (rs : List Request) {performed : List Bool}
    (hnone : ∀ b ∈ performed, b = false) :
    (s.performCut rs performed).inputs = s.inputs ∧ (s.performCut rs performed).outputs = s.outputs := by
  match rs, performed with
  | [], _ => exact ⟨rfl, rfl⟩
  | _ :: _, [] => exact ⟨rfl, rfl⟩
  | _ :: _, false :: _ => exact ⟨rfl, rfl⟩
  | _ :: _, true :: _ => exact absurd (hnone true List.mem_cons_self) nofun

/-! ### The transactions a cut command had issued (20_memory.md R37) -/

theorem requests_rd {s : State} {n : Int} (hc : countLegal n = true) (he : s.reader.err = .none)
    (hn : s.reader.cnt < n.toNat) : requests (.rd n) s = [.fill s.reader.sid] := by
  simp [requests, hc, he, hn]

theorem requests_wr {s : State} {x : Word} {n : Int} (hc : countLegal n = true) (he : s.writer.err = .none)
    (hn : 64 ≤ s.writer.cnt + n.toNat) :
    requests (.wr x n) s = [.drain s.writer.sid (wrEmitted x n.toNat s.writer)] := by
  simp [requests, hc, he, hn]

theorem requests_flush {s : State} (he : s.writer.err = .none) (hc : s.writer.cnt ≠ 0) :
    requests .flush s = [.drain s.writer.sid (flushBytes s.writer), .sync s.writer.sid] := by
  simp [requests, he, hc]

/-- No command looks at the port to issue its transactions. -/
theorem requests_port (i : Instr) (s : State) (rest : List PortInput) :
    requests i { s with port := rest } = requests i s := by
  cases i <;> rfl

/-- The step that cuts a command off, from the transactions the command issues. -/
theorem step_of_cut_requests {s : State} {w : CmdWord} {i : Instr} {rs : List Request} {performed : List Bool}
    {rest : List PortInput} (hp : s.port = .cutByReset w performed :: rest) (hd : decode w = .ok i)
    (hrs : requests i s = rs) :
    step s = .next (State.performCut { s with port := rest } rs performed).hardwareReset := by
  rw [step_of_cutByReset hp, State.cutCommand, wordRequests, hd, ← hrs, ← requests_port i s rest]

/-! ### What a performed transaction leaves in its stream (R30, R34, R36) -/

/-- A performed Fill moves an input side as an answered one does. -/
theorem InputSide.fillPerformed_of_fill {e e' : InputSide} {h : Handle} {a : FillAnswer} (hf : e.fill h = some (a, e')) :
    e.fillPerformed h = e' := by
  obtain ⟨hs, rfl⟩ | ⟨i, st, st', hs, hst, rfl⟩ := fill_cases hf
  · simp only [fillPerformed, hs]
  · have hperf : st.fillPerformed = st' := by simp only [InStream.fillPerformed, hst]
    rw [fillPerformed_of_stream hs, hperf]

/-- A reference stream has moved past its next eight bytes, or past all it had left. -/
theorem InputSide.RefersToUntil.fillPerformed {e : InputSide} {h : Handle} {rest : List Byte} {ending : Ending}
    (href : e.RefersToUntil h rest ending) : (e.fillPerformed h).RefersToUntil h (rest.drop 8) ending := by
  by_cases hrest : rest = []
  · subst hrest
    obtain ⟨e', hf, href'⟩ := fill_of_refersToUntil_nil href
    exact fillPerformed_of_fill hf ▸ href'
  · obtain ⟨e', hf, href'⟩ := fill_of_refersToUntil href hrest
    exact fillPerformed_of_fill hf ▸ href'

/-- A scripted stream has used up one entry, silence included. -/
theorem InStream.fillPerformed_of_script {st : InStream} {x : Option FillAnswer} {script : List (Option FillAnswer)}
    (hscript : st.script = x :: script) : st.fillPerformed = { st with script := script } := by
  obtain ⟨y, rest, hcons, hperf⟩ | ⟨hnil, -⟩ | ⟨hnil, -⟩ := st.fillPerformed_cases
  · cases hscript.symm.trans hcons
    exact hperf
  · cases hscript.symm.trans hnil
  · cases hscript.symm.trans hnil

theorem InputSide.fillPerformed_stream_of_script {e : InputSide} {h : Handle} {i : Nat} {st : InStream}
    {x : Option FillAnswer} {script : List (Option FillAnswer)} (hs : e.stream h = some (i, st))
    (hscript : st.script = x :: script) : (e.fillPerformed h).stream h = some (i, { st with script := script }) := by
  rw [fillPerformed_of_stream hs, InStream.fillPerformed_of_script hscript]
  exact stream_set hs

theorem OutputSide.drainPerformed_stream {e : OutputSide} {h : Handle} {i : Nat} {st : OutStream} (bytes : List Byte)
    (hs : e.stream h = some (i, st)) :
    ∃ st', (e.drainPerformed h bytes).stream h = some (i, st') ∧ st'.accepted = st.accepted ++ bytes ∧
      st'.synced = st.synced := by
  rw [drainPerformed_of_stream bytes hs]
  exact ⟨_, stream_set hs, rfl, rfl⟩

theorem OutputSide.syncPerformed_stream {e : OutputSide} {h : Handle} {i : Nat} {st : OutStream}
    (hs : e.stream h = some (i, st)) :
    ∃ st', (e.syncPerformed h).stream h = some (i, st') ∧ st'.accepted = st.accepted ∧
      st'.synced = st.accepted.length := by
  rw [syncPerformed_of_stream hs]
  exact ⟨_, stream_set hs, rfl, rfl⟩

/-- A command cut off after its first transaction, a performed Drain: the stream has all the bytes and no Sync, whatever the command
would have issued next. -/
theorem step_of_cut_drain {s : State} {w : CmdWord} {i : Instr} {rs : List Request} {bytes : List Byte}
    {rest : List PortInput} {k : Nat} {st : OutStream} (hp : s.port = .cutByReset w [true] :: rest) (hd : decode w = .ok i)
    (hrs : requests i s = .drain s.writer.sid bytes :: rs) (hs : s.outputs.stream s.writer.sid = some (k, st)) :
    ∃ t st', step s = .next t ∧ t.inputs = s.inputs ∧ s.outputs.SameButFor s.writer.sid t.outputs ∧
      t.outputs.stream s.writer.sid = some (k, st') ∧ st'.accepted = st.accepted ++ bytes ∧ st'.synced = st.synced := by
  obtain ⟨st', hs', hst'⟩ := OutputSide.drainPerformed_stream bytes hs
  have hstep := step_of_cut_requests hp hd hrs
  have hsame := s.outputs.drainPerformed_sameButFor s.writer.sid bytes
  cases rs with
  | nil => exact ⟨_, st', hstep, rfl, hsame, hs', hst'⟩
  | cons r rs => exact ⟨_, st', hstep, rfl, hsame, hs', hst'⟩

/-! ## A reference stream that is used up (R104) -/

/-- A reference stream that ends with EOF answers every Fill, with its next bytes and never with an error. -/
theorem InputSide.fill_of_refersTo {e : InputSide} {h : Handle} {rest : List Byte} (href : e.RefersTo h rest) :
    ∃ term e', e.fill h = some (⟨deliver rest, term⟩, e') ∧ ∀ c, term ≠ .err c := by
  by_cases hrest : rest = []
  · subst hrest
    obtain ⟨e', hf, -⟩ := fill_of_refersToUntil_nil href
    exact ⟨_, e', hf, nofun⟩
  · obtain ⟨e', hf, -⟩ := fill_of_refersToUntil href hrest
    exact ⟨_, e', hf, nofun⟩

/-- A read of more bits than the reader and the stream have. -/
theorem execRd_of_exhausted {s : State} {n : Int} {rest : List Byte} (he : s.reader.err = .none) (hn : n ≤ 64)
    (href : s.inputs.RefersTo s.reader.sid rest) (hq : s.reader.cnt + 8 * rest.length < n) :
    ∃ t, execRd n s = .next t ∧ t.reader.err = .unexpectedEoi := by
  obtain ⟨term, e, hf, hterm⟩ := InputSide.fill_of_refersTo href
  have hshort : 8 * (deliver rest).bytes.length < n.toNat - s.reader.cnt := by
    rw [deliver_bytes, List.length_take]; omega
  have hfail := rdAnswered_of_shortfall (a := ⟨deliver rest, term⟩)
    (s := { s with inputs := e }.record (.fill s.reader.sid ⟨deliver rest, term⟩)) hterm hshort
  exact ⟨_, execRd_failed (countLegal_iff.mpr (by omega)) he (by omega) hf hfail, rfl⟩

/-! ## Streams that never answer (R107) -/

theorem execRd_unanswered {s : State} {n : Int} (hc : countLegal n = true) (he : s.reader.err = .none)
    (hn : s.reader.cnt < n.toNat) (hf : s.inputs.fill s.reader.sid = none) : execRd n s = .fault .inputNeverAnswers := by
  simp [execRd, hc, he, Nat.not_le.mpr hn, State.fill_eq_none_iff.mpr hf]

theorem execWr_unanswered {s : State} {x : Word} {n : Int} (hc : countLegal n = true) (he : s.writer.err = .none)
    (hn : 64 ≤ s.writer.cnt + n.toNat)
    (hd : s.outputs.drain s.writer.sid (wrEmitted x n.toNat s.writer) = none) :
    execWr x n s = .fault .outputNeverAnswers := by
  have hdrain := State.drain_eq_none_iff (s := { s with writer := wrOverflow x n.toNat s.writer }).mpr hd
  simp [execWr, hc, he, Nat.not_lt.mpr hn, hdrain]

theorem flushSync_unanswered {s : State} (hy : s.outputs.sync s.writer.sid = none) :
    flushSync s = .fault .outputNeverAnswers := by
  simp [flushSync, State.sync_eq_none_iff.mpr hy]

theorem execFlush_unanswered {s : State} (he : s.writer.err = .none) (hc : s.writer.cnt ≠ 0)
    (hd : s.outputs.drain s.writer.sid (flushBytes s.writer) = none) : execFlush s = .fault .outputNeverAnswers := by
  have hdrain := State.drain_eq_none_iff (s := { s with writer := s.writer.emptied }).mpr hd
  simp [execFlush, he, hc, hdrain]

end Sys2Proof.Machine

section

open Sys2Proof Sys2Proof.Machine

/-- Settles O47: the table of R37 gives the first transaction of each command, and the bytes of a Drain are those with the bits asked
for. -/
theorem cutTransactionTakesEffectWholly : Obligations.CutTransactionTakesEffectWholly := by
  unfold Obligations.CutTransactionTakesEffectWholly
  refine ⟨?_, ?_, ?_⟩
  · intro s w n rest hp hd he h64 hn
    have hrs := requests_rd (countLegal_iff.mpr (by omega)) he (show s.reader.cnt < n.toNat by omega)
    exact ⟨_, step_of_cut_requests hp hd hrs, rfl, s.inputs.fillPerformed_sameButFor s.reader.sid,
      fun bytes ending href => href.fillPerformed,
      fun i st x script hs hscript => InputSide.fillPerformed_stream_of_script hs hscript⟩
  · intro s w x n rest i st bytes hp hd _ he h0 h64 hn hs hbits
    have hemit : 64 ≤ s.writer.cnt + n.toNat := by omega
    obtain rfl := eq_wrEmitted hemit hbits
    exact step_of_cut_drain hp hd (requests_wr (countLegal_iff.mpr ⟨h0, h64⟩) he hemit) hs
  · intro s w rest i st p bytes hp hd _ he hc hs hp8 hmod hbits
    obtain rfl := eq_flushBytes hp8 hmod hbits
    exact step_of_cut_drain hp hd (requests_flush he hc) hs

/-- Settles O12: the Drain comes first, and the second flag says whether the Sync has then covered what the stream holds. -/
theorem flushCutDuringItsSync : Obligations.FlushCutDuringItsSync := by
  unfold Obligations.FlushCutDuringItsSync
  intro s w b rest i st hp hd he hc hs
  have hstep := step_of_cut_requests hp hd (requests_flush he hc)
  obtain ⟨st₁, hs₁, hacc₁, hsynced₁⟩ := OutputSide.drainPerformed_stream (flushBytes s.writer) hs
  cases b with
  | false => exact ⟨_, st₁, hstep, hs₁, hacc₁, hsynced₁, rfl⟩
  | true =>
    obtain ⟨st₂, hs₂, hacc₂, hsynced₂⟩ := OutputSide.syncPerformed_stream hs₁
    exact ⟨_, st₂, hstep, hs₂, hacc₂.trans hacc₁, hsynced₂.trans (congrArg List.length hacc₂.symm), rfl⟩

/-- Settles O11: the environment's side of the cut does not respond, and the reset after it sets the channels whatever came before. -/
theorem commandCutByResetGivesNoResponse : Obligations.CommandCutByResetGivesNoResponse := by
  unfold Obligations.CommandCutByResetGivesNoResponse
  intro s w performed rest hp
  obtain ⟨hport, hresp⟩ := State.performCut_port_responses { s with port := rest }
    (wordRequests w { s with port := rest }) performed
  exact ⟨_, step_of_cutByReset hp, rfl, rfl, hport, (State.hardwareReset_responses _).trans hresp,
    fun hnone => State.performCut_of_none_performed _ _ hnone⟩

/-- Settles O40: with enough bits the read succeeds, and otherwise its one Fill brings all that is left, which is too little. -/
theorem shortfallExactlyWhenTheStreamIsExhausted : Obligations.ShortfallExactlyWhenTheStreamIsExhausted := by
  unfold Obligations.ShortfallExactlyWhenTheStreamIsExhausted
  intro s n rest hinv he h64 hn href
  obtain henough | hshort := le_or_gt n (s.reader.cnt + 8 * rest.length)
  · lift n to ℕ using by omega
    obtain ⟨t, v, e, txs, rest', hx, hv, -⟩ := execRd_of_refersTo (n := n) hinv he (by omega) href (by omega)
    exact ⟨t, hx, fun hlt => absurd henough (not_le.mpr hlt), fun _ => hv.clear⟩
  · obtain ⟨t, hx, ht⟩ := execRd_of_exhausted he h64 href hshort
    exact ⟨t, hx, fun _ => ht, fun hle => absurd hle (not_le.mpr hshort)⟩

/-- Settles O10: the reset writes the eight fields and records itself, and a rebind to handle 0 writes the same values. -/
theorem hardwareResetLeavesTheResetState : Obligations.HardwareResetLeavesTheResetState := by
  unfold Obligations.HardwareResetLeavesTheResetState
  refine ⟨fun s rest hp => ?_, rfl, rfl⟩
  exact ⟨_, step_of_reset hp, rfl, rfl, rfl, rfl, rfl, rfl, rfl, State.hardwareReset_requests _,
    State.hardwareReset_responses _⟩

/-- Settles O13: both channels are empty and unlatched. -/
theorem invariantsHoldAfterReset : Obligations.InvariantsHoldAfterReset := by
  unfold Obligations.InvariantsHoldAfterReset
  exact ⟨Channel.inv_of_empty rfl rfl, Channel.inv_of_empty rfl rfl, nofun⟩

/-- Settles O24: each command reaches the transaction that is not answered; the last FLUSH gets past its Drain to its Sync. -/
theorem silentStreamsStopTheUnit : Obligations.SilentStreamsStopTheUnit := by
  unfold Obligations.SilentStreamsStopTheUnit
  refine ⟨fun s n he h0 h64 hn hf => execRd_unanswered (countLegal_iff.mpr ⟨h0, h64⟩) he hn hf,
    fun s x n he h0 h64 hn hd => execWr_unanswered (countLegal_iff.mpr ⟨h0, h64⟩) he hn (hd _),
    fun s he hc hd => execFlush_unanswered he hc (hd _), fun s he hc hy => ?_, fun s he hc hd => ?_⟩
  · exact (execFlush_empty he hc).trans (flushSync_unanswered hy)
  · obtain ⟨e, hdrain, hy⟩ := hd (flushBytes s.writer)
    exact (execFlush_drained he hc hdrain).trans (flushSync_unanswered hy)

end

/-! SUPPORT. The idle unit: a step with nothing on the command port (log 12). -/

namespace Sys2Proof.Machine

/-- The fetch comes back with nothing exactly when the host offers nothing. -/
theorem State.fetch_eq_none_iff {s : State} : s.fetch = none ↔ s.port = [] := by
  cases hp : s.port with
  | nil => simp [State.fetch, hp]
  | cons p rest => simp [State.fetch_of_port hp]

theorem step_of_fetch_none {s : State} (hf : s.fetch = none) : step s = .next s := by
  simp only [step, hf]

end Sys2Proof.Machine

section

open Sys2Proof Sys2Proof.Machine

/-- Settles O9: the fetch finds no entry, and without one `step` answers the state it was given. -/
theorem idleUnitKeepsItsState : Obligations.IdleUnitKeepsItsState := by
  unfold Obligations.IdleUnitKeepsItsState
  intro s hp
  exact step_of_fetch_none (State.fetch_eq_none_iff.mpr hp)

end
